-- ==== Sys2Proof/Word.lean ====
section
/-! DEFINITION. The byte, the one word size of the block (spec/00_scope.md R6, R8). -/

namespace Sys2Proof

/-- An 8-bit unsigned value, 0x00 to 0xFF (R8). Bit 7 is `getLsbD 7`, the most significant. -/
abbrev Byte := BitVec 8

end Sys2Proof
end

