-- ==== Sys2Proof/Syntax.lean ====
section
/-! DEFINITION. The three commands, one constructor per row of spec/opcode_table.json. -/

namespace Sys2Proof

/-- A command (spec/30_encoding.md R81). No command carries an operand (R84). -/
inductive Instr where
  /-- COMPUTE, command byte 0x01 (spec/41_operations.md R146). -/
  | compute
  /-- VERIFY, command byte 0x02 (R147). -/
  | verify
  /-- INSERT, command byte 0x03 (R148). -/
  | insert
  deriving DecidableEq, Repr

end Sys2Proof
end

