-- ==== Sys2Proof/WellFormed.lean ====
section
/-! DEFINITION. The checks on what the outside world hands the block: the buffer length of a configuration, and a command
byte. An `Instr` itself has no operand (spec/30_encoding.md R84), so each of its three terms is well formed. -/

namespace Sys2Proof

/-- A configuration is well formed when N >= 1 (spec/00_scope.md R5, spec/60_exceptions.md R171). -/
def WellFormed.bufferLength (n : Nat) : Bool := decide (1 ≤ n)

/-- Bits 7:2 of a command must be zero (spec/30_encoding.md R80). -/
def WellFormed.reservedZero (v : Byte) : Bool := decide (v &&& 0xFC#8 = 0#8)

/-- The operation code in bits 1:0 names an operation: 00 is not a command (R81). -/
def WellFormed.opNamed (v : Byte) : Bool := decide (v &&& 0x03#8 ≠ 0#8)

/-- The legal command bytes (R81, R83). -/
def WellFormed.commandByte (v : Byte) : Bool := WellFormed.reservedZero v && WellFormed.opNamed v

/-- Every command is well formed: there is no operand to check (R84). -/
def WellFormed.instr : Instr → Bool
  | .compute => true
  | .verify => true
  | .insert => true

end Sys2Proof
end

