-- ==== Sys2Proof/Decode.lean ====
section
/-! DEFINITION. The command decoder, total over all 256 bytes, and the encoder (spec/30_encoding.md R80 to R83). -/

namespace Sys2Proof

/-- The field `op`, bits 1:0 of format C (R80). -/
def opField (v : Byte) : BitVec 2 := v.extractLsb' 0 2

/-- The field `zero`, bits 7:2 of format C, which must be 0 (R80). -/
def zeroField (v : Byte) : BitVec 6 := v.extractLsb' 2 6

/-- The operation code of a command: what START latches into OP (R81). -/
def Instr.opcode : Instr → BitVec 2
  | .compute => 1#2
  | .verify => 2#2
  | .insert => 3#2

/-- Why a byte is no command (R83). The block answers both alike, by IllegalCommand. -/
inductive DecodeError where
  /-- A reserved bit, 7:2, is set. -/
  | reservedBitSet
  /-- The reserved bits are zero and `op` is 00: the byte 0x00. -/
  | noOperation
  deriving DecidableEq, Repr

/-- The decoder: the command a byte stands for, or why it is none (R81 to R83). -/
def decode (v : Byte) : Except DecodeError Instr :=
  if zeroField v ≠ 0#6 then .error .reservedBitSet
  else if opField v = 1#2 then .ok .compute
  else if opField v = 2#2 then .ok .verify
  else if opField v = 3#2 then .ok .insert
  else .error .noOperation

/-- The command byte of a command: six zero bits, then its operation code (R80, R81). -/
def encode (i : Instr) : Byte := 0#6 ++ i.opcode

/-- The host's word for a command: one byte, bit 0 the least significant bit. A number that is not one byte
(`nbits` above 8) is no command; with fewer bits than 8 the rest of the byte is zero. Log entry 18. -/
def decodeTableWord (nbits w : Nat) : Option Instr :=
  if nbits ≤ 8 then
    match decode (BitVec.ofNat 8 (w % 2 ^ nbits)) with
    | .ok i => some i
    | .error _ => none
  else none

end Sys2Proof
end

