-- ==== Sys2Proof/Config.lean ====
section
/-! DEFINITION. What an instance fixes and what the spec leaves open. None of these has a body, so nothing about their
values can be proved: a theorem that mentions one holds for every value it may have. -/

namespace Sys2Proof

/-- The index N-1 of the CRC slot of the instance that `Machine.State.reset` describes, so that its buffer length is
N = `Config.lastIndex + 1`: any N >= 1, and N = 0 cannot be written (spec/00_scope.md R5). Log entry 2. -/
opaque Config.lastIndex : Nat

/-- POLY after reset number `e`: any byte (spec/10_state.md R36, spec/70_reset_and_hazards.md R200). Free value, log entry 1. -/
opaque Config.resetPoly : Nat → Byte

/-- BUF[i] after reset number `e`: any byte, possibly different per byte and per reset (R36). Free value, log entry 1. -/
opaque Config.resetByte : (e i : Nat) → Byte

/-- The two agents of a run, each taking atomic steps (spec/00_scope.md R12). -/
inductive Agent where
  | host
  | engine
  deriving DecidableEq, Repr

/-- The order of turns once those written in the state are used up: finite blocks of turns, any ones
(spec/00_scope.md R12: any interleaving). Free value, log entry 4. -/
opaque Config.turns : Nat → List Agent

end Sys2Proof
end

