-- ==== Sys2Proof/Machine/Block.lean ====
section
/-! DEFINITION. The state of the block: the ten elements of spec/10_state.md R20 and nothing else, and its value after RESET. -/

namespace Sys2Proof.Machine

/-- BUF (spec/10_state.md R21): N bytes, N >= 1. `payload` is bytes 0..N-2 in array order and `slot` is the final byte
BUF[N-1], the designated CRC slot, so a buffer of length zero cannot be written (spec/60_exceptions.md R171). Log entry 3. -/
structure Buffer where
  payload : List Byte
  slot : Byte
  deriving DecidableEq, Repr

/-- The complete state of one engine (R20). -/
structure Block where
  /-- BUF, the buffer (R21). -/
  buf : Buffer
  /-- POLY, the generator polynomial without its x^8 term (R22). -/
  poly : Byte
  /-- REM, the remainder register (R23). -/
  rem : Byte
  /-- POS, the number of stream bits consumed (R24). -/
  pos : Nat
  /-- OP, the operation code latched by the last START, 0 before the first (R25). -/
  op : BitVec 2
  /-- BUSY (R26). -/
  busy : Bool
  /-- DONE (R27). -/
  done : Bool
  /-- MATCH (R28). -/
  matched : Bool
  /-- ERR (R29). -/
  err : Bool
  /-- ERRCODE (R29). -/
  errCode : BitVec 3
  deriving DecidableEq, Repr

/-- The contents of a buffer of length `lastIndex + 1` after reset number `e`: free values (R36). Log entry 1. -/
def Buffer.afterReset (lastIndex e : Nat) : Buffer :=
  { payload := (List.range lastIndex).map (Config.resetByte e)
    slot := Config.resetByte e lastIndex }

/-- The state after RESET, of the instance whose buffer has length `lastIndex + 1` (R36, spec/70_reset_and_hazards.md R200):
every flag and counter zero, POLY and BUF unspecified. -/
def Block.afterReset (lastIndex e : Nat) : Block :=
  { buf := Buffer.afterReset lastIndex e
    poly := Config.resetPoly e
    rem := 0#8
    pos := 0
    op := 0#2
    busy := false
    done := false
    matched := false
    err := false
    errCode := 0#3 }

end Sys2Proof.Machine
end

