-- ==== Sys2Proof/Machine/State.lean ====
section
/-! DEFINITION. The state of a run: the block, the host agent that drives it, and the order of their steps
(spec/00_scope.md R12); the reasons a step can stop. -/

namespace Sys2Proof.Machine

/-- What the host can do in one line of a host program (spec/30_encoding.md R86). -/
inductive HostOp where
  /-- `RD a`: one READ transaction (spec/20_memory.md R57). -/
  | read (addr : Nat)
  /-- `WR a, v`: one WRITE transaction (R52). A command is a WRITE to address 0. -/
  | write (addr : Nat) (data : Byte)
  /-- `RESET` (spec/70_reset_and_hazards.md R200). -/
  | reset
  /-- `WAIT`: READ(1) again and again, until BUSY reads 0 (spec/30_encoding.md R86). -/
  | wait
  deriving DecidableEq, Repr

/-- Why the machine stops. A fault of the host interface (IllegalCommand, BusyAccess, BadAccess) is no stop: its effect is
defined (spec/60_exceptions.md R176) and the step that meets it answers a next state. -/
inductive Fault where
  /-- Raised by an engine turn when BUSY = 1 and POS > 8·N, where neither BITSTEP nor FINISH is enabled
  (spec/41_operations.md R140). No run from reset reaches such a state (spec/10_state.md R37). Safe: a stuck state. Log entry 7. -/
  | sequencerPastEnd
  deriving DecidableEq, Repr

/-- What the model refuses. -/
inductive Refusal where
  /-- Raised by an arm of `exec` whose instruction has no meaning yet. Safe. No arm raises it. -/
  | notModelled (mnemonic : String)
  /-- InvalidInput: raised by `State.instantiate` for a configuration with N = 0, before any step
  (spec/60_exceptions.md R171). Safe: the spec asks for the refusal. -/
  | invalidInput
  deriving DecidableEq, Repr

/-- The state of a run. `block` is the hardware (spec/10_state.md R20); the other fields are the model's own. -/
structure State where
  /-- The engine's state. -/
  block : Block
  /-- The host's program: what it has still to do, first line first (R86). Log entry 5. -/
  program : List HostOp
  /-- The address and the returned byte of every READ so far, newest first (R57). Log entry 5. -/
  reads : List Host.Cell
  /-- Whose turn comes next, first turn first (R12). Log entry 4. -/
  turns : List Agent
  /-- The argument of the free interleaving, advanced at each use (R12). Log entry 4. -/
  tick : Nat
  /-- The number of the next RESET, the argument of its free contents (R36). Log entry 1. -/
  resets : Nat
  deriving DecidableEq, Repr

/-- A run of the instance of buffer length `lastIndex + 1` at its first reset: the block after RESET number 0, a host with
nothing to do yet, no interleaving fixed (R36, R202). Log entries 9, 10, 17. -/
def State.afterReset (lastIndex : Nat) : State :=
  { block := Block.afterReset lastIndex 0
    program := []
    reads := []
    turns := []
    tick := 0
    resets := 1 }

/-- The machine right after reset. -/
def State.reset : State := State.afterReset Config.lastIndex

end Sys2Proof.Machine
end

