-- ==== Sys2Proof/Machine/Operands.lean ====
section
/-! DEFINITION. What an access names: the bytes of BUF, a bit of the stream, a host address. -/

namespace Sys2Proof.Machine

/-- The buffer as the sequence `[b0, ..., b(N-1)]` in array order (spec/00_scope.md R8). -/
def Buffer.bytes (b : Buffer) : List Byte := b.payload ++ [b.slot]

/-- N, the buffer length in bytes (R5). -/
def Buffer.length (b : Buffer) : Nat := b.payload.length + 1

/-- BUF[i]; zero outside the buffer, where no rule reads it. -/
def Buffer.get (b : Buffer) (i : Nat) : Byte := b.bytes.getD i 0#8

/-- `BUF[i] <- v`, for i < N; outside the buffer nothing is written. -/
def Buffer.set (b : Buffer) (i : Nat) (v : Byte) : Buffer :=
  if i < b.payload.length then { b with payload := b.payload.set i v }
  else if i = b.payload.length then { b with slot := v }
  else b

/-- Stream position p of a byte sequence: bit 7 - (p mod 8) of byte p div 8 (R9, spec/20_memory.md R60). -/
def streamBit (bytes : List Byte) (p : Nat) : Bool := (bytes.getD (p / 8) 0#8).getLsbD (7 - p % 8)

/-- N of this instance. -/
def Block.length (b : Block) : Nat := b.buf.length

/-- 8·N, the number of bits of an operation (spec/00_scope.md R6). -/
def Block.bits (b : Block) : Nat := 8 * b.length

/-- The engine's operand: stream position POS of BUF (spec/20_memory.md R64). -/
def Block.inputBit (b : Block) : Bool := streamBit b.buf.bytes b.pos

/-- What a host address names (spec/20_memory.md R50). -/
inductive Target where
  /-- 0, CMD, write-only. -/
  | cmd
  /-- 1, STATUS, read-only. -/
  | status
  /-- 2, POLY, read-write. -/
  | poly
  /-- 3, CRC, read-only. -/
  | crc
  /-- 4 + i with i < N, BUF[i], read-write. -/
  | buf (i : Nat)
  /-- N + 4 and above (R59). -/
  | unmapped
  deriving DecidableEq, Repr

/-- The address map of an instance of buffer length `n` (R50). Nothing aliases (R59). -/
def target (n : Nat) : Nat → Target
  | 0 => .cmd
  | 1 => .status
  | 2 => .poly
  | 3 => .crc
  | i + 4 => if i < n then .buf i else .unmapped

/-- The buffer memory as (address, byte) pairs, in the host's addresses 4 to N + 3 (R50). Every one of these addresses
exists and no other does, so this listing is the one form of the memory. Log entry 3. -/
abbrev Memory := List Host.Cell

/-- The canonical form: at least one cell, the addresses 4, 5, ... in rising order with no gap. -/
def Memory.wf (m : Memory) : Bool := decide (m ≠ [] ∧ m.map Prod.fst = List.range' 4 m.length)

/-- The buffer's memory cells. -/
def Buffer.cells (b : Buffer) : Memory := (b.bytes.zipIdx 4).map Prod.swap

end Sys2Proof.Machine
end

