-- ==== Sys2Proof/Machine/Flags.lean ====
section
/-! DEFINITION. The flags: STATUS, the codes of the faults, and the two flag values an operation computes. -/

namespace Sys2Proof.Machine

/-- The faults (spec/60_exceptions.md R170). -/
inductive HostFault where
  /-- N = 0; never raised at run time (R171). -/
  | invalidInput
  /-- A WRITE of an illegal byte to CMD at idle (R173). -/
  | illegalCommand
  /-- A WRITE to CMD, POLY or BUF while BUSY = 1 (R174). -/
  | busyAccess
  /-- An access the map does not allow (R175). -/
  | badAccess
  deriving DecidableEq, Repr

/-- The code a fault leaves in ERRCODE (R170). -/
def HostFault.code : HostFault → BitVec 3
  | .invalidInput => 1#3
  | .illegalCommand => 2#3
  | .busyAccess => 3#3
  | .badAccess => 4#3

/-- STATUS (spec/10_state.md R30): bit 7 reads 0, bits 6:4 ERRCODE, bit 3 ERR, bit 2 MATCH, bit 1 DONE, bit 0 BUSY. -/
def Block.status (b : Block) : Byte :=
  0#1 ++ (b.errCode ++ (BitVec.ofBool b.err ++ (BitVec.ofBool b.matched ++ (BitVec.ofBool b.done ++ BitVec.ofBool b.busy))))

/-- MATCH as FINISH leaves it: written by VERIFY alone, to REM == 0x00 (R28, spec/41_operations.md R143). -/
def Block.finishMatch (b : Block) : Bool := if b.op = 2#2 then decide (b.rem = 0#8) else b.matched

/-- ERRCODE as a fault leaves it: the code of the first fault since reset (R29, spec/60_exceptions.md R176). -/
def Block.faultCode (f : HostFault) (b : Block) : BitVec 3 := if b.err then b.errCode else f.code

end Sys2Proof.Machine
end

