-- ==== Sys2Proof/Machine/Divider.lean ====
section
/-! DEFINITION. The bitwise divider and the three operations as pure functions (spec/40_divider.md R100 to R106). -/

namespace Sys2Proof.Machine

/-- One step of the shift register (R100): the high bit is sampled, the remainder is shifted left by one with `b` as its new
bit 0, and `poly` is XORed in when the high bit was 1. -/
def bitstep (rem poly : Byte) (b : Bool) : Byte :=
  let sh := (rem <<< 1) ||| (if b then 1#8 else 0#8)
  if rem.getLsbD 7 then sh ^^^ poly else sh

/-- Consume the eight bits of `x`, most significant first (R102). -/
def bytestep (rem poly x : Byte) : Byte :=
  [7, 6, 5, 4, 3, 2, 1, 0].foldl (fun r k => bitstep r poly (x.getLsbD k)) rem

/-- Consume a sequence of bytes in array order (R103). -/
def divide (rem poly : Byte) (bytes : List Byte) : Byte := bytes.foldl (fun r x => bytestep r poly x) rem

/-- Consume stream positions 0 to p-1 of a sequence of bytes and stop (R103). -/
def divideBits (rem poly : Byte) (bytes : List Byte) : Nat → Byte
  | 0 => rem
  | p + 1 => bitstep (divideBits rem poly bytes p) poly (streamBit bytes p)

/-- The checksum of the whole buffer, its last byte included (R104). A `Buffer` has N >= 1, so the empty loop that R107
forbids cannot be asked for. -/
def Buffer.compute (b : Buffer) (poly : Byte) : Byte := divide 0#8 poly b.bytes

/-- Whether the whole buffer divides evenly (R105). -/
def Buffer.verify (b : Buffer) (poly : Byte) : Bool := decide (b.compute poly = 0#8)

/-- The buffer with its checksum, the placeholder's old value included in it, in the last byte (R106). -/
def Buffer.insert (b : Buffer) (poly : Byte) : Buffer := { b with slot := b.compute poly }

/-- The remainder of a payload followed by a zero byte (R113). -/
def computeZeroSlot (payload : List Byte) (poly : Byte) : Byte := divide 0#8 poly (payload ++ [0#8])

end Sys2Proof.Machine
end

