-- ==== Sys2Proof/Machine/Ops.lean ====
section
/-! DEFINITION. The named operations on the block: taking a fault, the three engine steps, the host's accesses and RESET. -/

namespace Sys2Proof.Machine

/-- `raise f`, the one way a fault takes effect (spec/60_exceptions.md R176): ERR is set and the first fault's code kept.
Nothing is saved and control goes nowhere, so there is no return beside it (R181): only RESET clears what this records. -/
def Block.raise (f : HostFault) (b : Block) : Block :=
  { b with errCode := b.faultCode f, err := true }

/-- START(op), the effect of a legal command at idle (spec/41_operations.md R141). -/
def Block.start (op : BitVec 2) (b : Block) : Block :=
  { b with op := op, rem := 0#8, pos := 0, busy := true, done := false, matched := false }

/-- BITSTEP (R142). -/
def Block.bitStep (b : Block) : Block :=
  { b with rem := bitstep b.rem b.poly b.inputBit, pos := b.pos + 1 }

/-- BUF as FINISH leaves it: INSERT alone writes the CRC slot (R143). -/
def Block.finishBuf (b : Block) : Buffer := if b.op = 3#2 then { b.buf with slot := b.rem } else b.buf

/-- FINISH (R143): all its writes happen together. With OP = 0, which no run reaches while busy, it acts as the rule's
pseudocode says, that is as COMPUTE's (log entry 8). -/
def Block.finish (b : Block) : Block :=
  { b with buf := b.finishBuf, matched := b.finishMatch, busy := false, done := true }

/-- The engine's step (R140): none at idle, BITSTEP while POS < 8·N, FINISH at POS = 8·N. -/
def Block.engineStep (b : Block) : Host.Outcome Block Fault Refusal :=
  if b.busy then
    if b.pos < b.bits then .next b.bitStep
    else if b.pos = b.bits then .next b.finish
    else .fault .sequencerPastEnd
  else .next b

/-- A legal command written to CMD (spec/20_memory.md R52, spec/30_encoding.md R82): BusyAccess while an operation runs,
START at idle. -/
def Block.command (op : BitVec 2) (b : Block) : Block :=
  if b.busy then b.raise .busyAccess else b.start op

/-- An illegal byte written to CMD: BusyAccess while an operation runs, IllegalCommand at idle (R52, R82,
spec/60_exceptions.md R178). -/
def Block.badCommand (b : Block) : Block :=
  if b.busy then b.raise .busyAccess else b.raise .illegalCommand

/-- A WRITE to POLY (R52, R53). -/
def Block.writePoly (v : Byte) (b : Block) : Block :=
  if b.busy then b.raise .busyAccess else { b with poly := v }

/-- A WRITE to BUF[i] (R52, R54). -/
def Block.writeBuf (i : Nat) (v : Byte) (b : Block) : Block :=
  if b.busy then b.raise .busyAccess else { b with buf := b.buf.set i v }

/-- The byte that READ(a) returns (R57); a faulting read returns 0x00. -/
def Block.readByte (b : Block) (a : Nat) : Byte :=
  match target b.length a with
  | .cmd => 0#8
  | .status => b.status
  | .poly => b.poly
  | .crc => b.rem
  | .buf i => b.buf.get i
  | .unmapped => 0#8

/-- What READ(a) does to the block: nothing, or a BadAccess (R57, R58). -/
def Block.afterRead (b : Block) (a : Nat) : Block :=
  match target b.length a with
  | .cmd => b.raise .badAccess
  | .status => b
  | .poly => b
  | .crc => b
  | .buf _ => b
  | .unmapped => b.raise .badAccess

/-- RESET number `e` (spec/70_reset_and_hazards.md R200): the state of spec/10_state.md R36, at the same N. -/
def Block.reset (e : Nat) (b : Block) : Block := Block.afterReset b.buf.payload.length e

/-- A run of the configuration with buffer length `n` from its first reset; N = 0 is refused before any step
(spec/60_exceptions.md R171). -/
def State.instantiate (n : Nat) : Host.Outcome State Fault Refusal :=
  match n with
  | 0 => .refused .invalidInput
  | lastIndex + 1 => .next (State.afterReset lastIndex)

end Sys2Proof.Machine
end

