-- ==== Sys2Proof/Machine/Commands.lean ====
section
/-! DEFINITION. The three commands: what the WRITE of each command byte to CMD does in its own step (spec/41_operations.md
R140, R146 to R148). The operation it starts goes on in the engine's steps, `Block.bitStep` and `Block.finish`. Log entry 11. -/

namespace Sys2Proof.Machine

/-- The shared effect of a legal command on the run: only the block changes. -/
def State.command (i : Instr) (s : State) : State := { s with block := s.block.command i.opcode }

/-- COMPUTE (R146): START with op = 1. -/
def execCompute (s : State) : Host.Outcome State Fault Refusal := .next (s.command .compute)

/-- VERIFY (R147): START with op = 2. -/
def execVerify (s : State) : Host.Outcome State Fault Refusal := .next (s.command .verify)

/-- INSERT (R148): START with op = 3. -/
def execInsert (s : State) : Host.Outcome State Fault Refusal := .next (s.command .insert)

end Sys2Proof.Machine
end

