-- ==== Sys2Proof/Machine/Dispatch.lean ====
section
/-! DEFINITION. One arm per command. -/

namespace Sys2Proof.Machine

def exec (i : Instr) (s : State) : Host.Outcome State Fault Refusal :=
  match i with
  | .compute => Sys2Proof.Machine.execCompute s
  | .verify => Sys2Proof.Machine.execVerify s
  | .insert => Sys2Proof.Machine.execInsert s

end Sys2Proof.Machine
end

