-- ==== Sys2Proof/Machine/Transactions.lean ====
section
/-! DEFINITION. The host's transactions and the order of turns (spec/20_memory.md R52, R57, spec/00_scope.md R12). -/

namespace Sys2Proof.Machine

/-- Change the block alone. -/
def State.onBlock (f : Block → Block) (s : State) : State := { s with block := f s.block }

/-- READ(a): the byte goes to the host, the block faults or stays as it is (spec/20_memory.md R57). -/
def hostRead (a : Nat) (s : State) : State :=
  { s with block := s.block.afterRead a, reads := (a, s.block.readByte a) :: s.reads }

/-- WRITE(a, v) (R52): the target first, then BUSY, then the data. A byte written to CMD that decodes is run by `exec`
inside this same step (R56, R67). -/
def hostWrite (a : Nat) (v : Byte) (s : State) : Host.Outcome State Fault Refusal :=
  match target s.block.length a with
  | .cmd =>
    match decode v with
    | .ok i => exec i s
    | .error _ => .next (s.onBlock Block.badCommand)
  | .status => .next (s.onBlock (Block.raise .badAccess))
  | .poly => .next (s.onBlock (Block.writePoly v))
  | .crc => .next (s.onBlock (Block.raise .badAccess))
  | .buf i => .next (s.onBlock (Block.writeBuf i v))
  | .unmapped => .next (s.onBlock (Block.raise .badAccess))

/-- RESET (spec/70_reset_and_hazards.md R200): possible in any state; each one leaves contents of its own in POLY and BUF. -/
def hostReset (s : State) : State :=
  { s with block := s.block.reset s.resets, resets := s.resets + 1 }

/-- One READ of STATUS by WAIT: the host waits on while bit 0 of the byte it got is 1 (spec/30_encoding.md R86). -/
def hostWait (s : State) : State :=
  let t := hostRead 1 s
  if (s.block.readByte 1).getLsbD 0 then { t with program := .wait :: t.program } else t

/-- One line of the host's program. -/
def hostAct (h : HostOp) (s : State) : Host.Outcome State Fault Refusal :=
  match h with
  | .read a => .next (hostRead a s)
  | .write a v => hostWrite a v s
  | .reset => .next (hostReset s)
  | .wait => .next (hostWait s)

/-- The host's turn: the next line of its program, or nothing (spec/00_scope.md R12). Log entry 16. -/
def hostTurn (s : State) : Host.Outcome State Fault Refusal :=
  match s.program with
  | [] => .next s
  | h :: rest => hostAct h { s with program := rest }

/-- The engine's turn: its step, or nothing at idle (spec/41_operations.md R140). Log entry 16. -/
def engineTurn (s : State) : Host.Outcome State Fault Refusal :=
  match s.block.engineStep with
  | .next b => .next { s with block := b }
  | .fault r => .fault r
  | .refused r => .refused r

/-- Whose turn it is, and the state with that turn used. When the turns written in the state have run out, the free
interleaving gives a next block of them, any finite list, and after it one turn of each agent, so that neither is starved for
ever (R12, spec/70_reset_and_hazards.md R213). Log entry 4. -/
def nextTurn (s : State) : Agent × State :=
  match s.turns with
  | a :: rest => (a, { s with turns := rest })
  | [] =>
    match Config.turns s.tick with
    | [] => (.host, { s with turns := [.engine], tick := s.tick + 1 })
    | a :: rest => (a, { s with turns := rest ++ [.host, .engine], tick := s.tick + 1 })

/-- The turn of one agent. -/
def agentTurn (g : Agent) (s : State) : Host.Outcome State Fault Refusal :=
  match g with
  | .host => hostTurn s
  | .engine => engineTurn s

/-- Put a byte where the host's next turn writes it to CMD, and make that turn the next one. -/
def State.withCommandByte (s : State) (v : Byte) : State :=
  { s with program := .write 0 v :: s.program, turns := .host :: s.turns }

end Sys2Proof.Machine
end

