-- ==== Sys2Proof/Machine/Step.lean ====
section
/-! DEFINITION. One step of a run, by the agent whose turn it is. -/

namespace Sys2Proof.Machine

/-- One atomic step (spec/00_scope.md R12). -/
def step (s : State) : Host.Outcome State Fault Refusal :=
  agentTurn (nextTurn s).1 (nextTurn s).2

/-- The block fetches no instruction (spec/20_memory.md R67): a command is the data of a WRITE to CMD, so the next command
stands at the head of the host's program, and the host has the next turn. Log entry 10. -/
def State.withFetchWord (s : State) (nbits w : Nat) : State :=
  s.withCommandByte (BitVec.ofNat 8 (w % 2 ^ nbits))

end Sys2Proof.Machine
end

