-- ==== Sys2Proof/Polynomial.lean ====
section
/-! DEFINITION. How bytes and bit streams are read as polynomials over GF(2) (spec/00_scope.md R7, R9). Words for claims only:
nothing in the machine uses them. -/

namespace Sys2Proof

open Polynomial Machine

/-- A bit as a coefficient. -/
noncomputable def bitPoly (b : Bool) : (ZMod 2)[X] := if b then 1 else 0

/-- A byte r as the polynomial sum of r[i]·x^i, of degree at most 7 (spec/40_divider.md R110). -/
noncomputable def bytePoly (r : Byte) : (ZMod 2)[X] := ∑ i ∈ Finset.range 8, bitPoly (r.getLsbD i) * X ^ i

/-- The divisor G(x) = x^8 + sum of poly[i]·x^i; the x^8 term is implied (spec/00_scope.md R7). -/
noncomputable def generator (poly : Byte) : (ZMod 2)[X] := X ^ 8 + bytePoly poly

/-- The stream of a byte sequence as the polynomial sum of bit(p)·x^(8·n-1-p): the first bit has the highest degree (R9). -/
noncomputable def streamPoly (bytes : List Byte) : (ZMod 2)[X] :=
  ∑ p ∈ Finset.range (8 * bytes.length), bitPoly (streamBit bytes p) * X ^ (8 * bytes.length - 1 - p)

end Sys2Proof
end

