-- ==== Sys2Proof/Machine/HostProgram.lean ====
section
/-! DEFINITION. Host programs: the lines of spec/30_encoding.md R86 and the pseudo-operations of R87 as host steps.
RESET, WR, RD and WAIT are `HostOp`'s own constructors. -/

namespace Sys2Proof.Machine

/-- `COMPUTE`, `VERIFY`, `INSERT`: the command's byte written to CMD (R86). -/
def commandLine (i : Instr) : List HostOp := [.write 0 (encode i)]

/-- `POLY p` (R86). -/
def polyLine (p : Byte) : List HostOp := [.write 2 p]

/-- Writes of consecutive addresses from `a` on. -/
def loadFrom (a : Nat) : List Byte → List HostOp
  | [] => []
  | v :: rest => .write a v :: loadFrom (a + 1) rest

/-- `LOAD [b0, ..., b(N-1)]` (R86). -/
def loadLine (b : Buffer) : List HostOp := loadFrom 4 b.bytes

/-- `STORE`, the reads of an instance of buffer length `n` (R86). -/
def storeLine (n : Nat) : List HostOp := (List.range' 4 n).map .read

/-- `compute(B, P)` as a host program (R87). -/
def computeCall (b : Buffer) (p : Byte) : List HostOp :=
  polyLine p ++ loadLine b ++ commandLine .compute ++ [.wait, .read 3]

/-- `verify(B, P)` as a host program (R87). -/
def verifyCall (b : Buffer) (p : Byte) : List HostOp :=
  polyLine p ++ loadLine b ++ commandLine .verify ++ [.wait, .read 1]

/-- `insert(B, P)` as a host program (R87). -/
def insertCall (b : Buffer) (p : Byte) : List HostOp :=
  polyLine p ++ loadLine b ++ commandLine .insert ++ [.wait] ++ storeLine b.length

end Sys2Proof.Machine
end

