-- ==== Sys2Proof/Safety.lean ====
section
/-! DEFINITION. The terms claims use: the invariant of the reachable states, a clean run, and what differs only in a fault's
trace. -/

namespace Sys2Proof

open Machine

/-- The state invariant (spec/10_state.md R37, (a) to (g)). -/
structure Inv (b : Block) : Prop where
  /-- (a) -/
  pos_le : b.pos ≤ b.bits
  /-- (b) -/
  busy_flags : b.busy = true → b.done = false ∧ b.matched = false ∧ b.op ≠ 0#2
  /-- (c) -/
  done_flags : b.done = true → b.busy = false ∧ b.pos = b.bits ∧ b.op ≠ 0#2
  /-- (d) -/
  fresh : b.busy = false → b.done = false → b.op = 0#2 ∧ b.pos = 0 ∧ b.rem = 0#8 ∧ b.matched = false
  /-- (e) -/
  match_verify : b.matched = true → b.done = true ∧ b.op = 2#2 ∧ b.rem = 0#8
  /-- (f), no fault -/
  no_fault : b.err = false → b.errCode = 0#3
  /-- (f), some fault -/
  fault_code : b.err = true → b.errCode = 2#3 ∨ b.errCode = 3#3 ∨ b.errCode = 4#3
  /-- (g) -/
  partial_rem : b.busy = true → b.rem = divideBits 0#8 b.poly b.buf.bytes b.pos

/-- No fault so far: the premise that claims about host programs take or prove (spec/60_exceptions.md R187). -/
def Clean (b : Block) : Prop := b.err = false

/-- The block with its fault trace replaced (spec/60_exceptions.md R176: a fault records ERR and ERRCODE only). -/
def Machine.Block.withTrace (b : Block) (err : Bool) (errCode : BitVec 3) : Block := { b with err := err, errCode := errCode }

/-- The run with its block's fault trace replaced. -/
def Machine.State.withTrace (s : State) (err : Bool) (errCode : BitVec 3) : State :=
  { s with block := s.block.withTrace err errCode }

/-- `k` steps of a run. -/
def runs (k : Nat) (s : State) : Host.Outcome State Fault Refusal := core.run k s

/-- The run in which the next `k` turns are the engine's. -/
def Machine.State.engineNext (s : State) (k : Nat) : State := { s with turns := List.replicate k .engine ++ s.turns }

/-- The run in which the host's next turn comes now and does `h`. -/
def Machine.State.hostNext (s : State) (h : HostOp) : State :=
  { s with program := h :: s.program, turns := .host :: s.turns }

/-- The next step is a RESET (spec/70_reset_and_hazards.md R200). -/
def Machine.State.ResetsNext (s : State) : Prop := (nextTurn s).1 = .host ∧ s.program.head? = some .reset

/-- A host line that neither faults nor resets an instance of buffer length `n`, whatever the engine is doing: WAIT, and a
READ of addresses 1 to n + 3 (spec/20_memory.md R58). -/
def Machine.HostOp.Quiet (n : Nat) : HostOp → Prop
  | .wait => True
  | .read a => 1 ≤ a ∧ a < n + 4
  | .write _ _ => False
  | .reset => False

/-- A host line that is no RESET and writes no command byte: it can neither start nor abandon an operation (spec/41_operations.md R149). -/
def Machine.HostOp.Harmless (h : HostOp) : Prop := h ≠ .reset ∧ ∀ i : Instr, h ≠ .write 0 (encode i)

/-- The buffer with the bit at stream position `q` flipped (spec/00_scope.md R9). -/
def Machine.Buffer.flip (b : Buffer) (q : Nat) : Buffer := b.set (q / 8) (b.get (q / 8) ^^^ (1#8 <<< (7 - q % 8)))

/-- Two byte sequences XORed byte by byte (spec/40_divider.md R111). -/
def xorBytes (a b : List Byte) : List Byte := List.zipWith (· ^^^ ·) a b

end Sys2Proof
end

