-- ==== Sys2Proof/Certificates/Slice0/Obligations.lean ====
section
/-! DEFINITION. The statements for the provers. -/

open Sys2Proof Sys2Proof.Machine

/-! ### The command byte -/

/-- Words written out from spec/30_encoding.md R80 and R81, bits 7:2 zero and `op` in bits 1:0, and four illegal bytes (R83). -/
def Obligations.CommandWordsDecode : Prop :=
  decodeTableWord 8 0b00000001 = some .compute ∧ decodeTableWord 8 0b00000010 = some .verify ∧
    decodeTableWord 8 0b00000011 = some .insert ∧ decodeTableWord 8 0b00000000 = none ∧
    decodeTableWord 8 0b00000101 = none ∧ decodeTableWord 8 0b00000100 = none ∧ decodeTableWord 8 0b10000011 = none

/-- The encoder and the decoder agree in both directions (R80 to R82). -/
def Obligations.DecodeInvertsEncode : Prop :=
  (∀ i : Instr, decode (encode i) = .ok i) ∧ ∀ (v : Byte) (i : Instr), decode v = .ok i → v = encode i

/-- R83: every byte but 0x01, 0x02 and 0x03 is illegal; written to CMD at idle it raises IllegalCommand, starts nothing and
changes nothing but ERR and ERRCODE. -/
def Obligations.IllegalCommandBytesRaise : Prop :=
  ∀ (s : State) (v : Byte), s.block.busy = false → v ≠ 0x01#8 → v ≠ 0x02#8 → v ≠ 0x03#8 →
    (∃ e, decode v = .error e) ∧
      step (s.hostNext (.write 0 v)) =
        .next { s with block := { s.block with err := true, errCode := if s.block.err then s.block.errCode else 2#3 } }

/-- A step runs the decoded command: when the host's next turn writes a byte to CMD that decodes to `i`, the step is `exec i`
at the state with that line and that turn used; the same for the host's word. -/
def Obligations.StepRunsDecodedCommand : Prop :=
  (∀ (s : State) (v : Byte) (i : Instr), decode v = .ok i → step (s.hostNext (.write 0 v)) = exec i s) ∧
    ∀ (s : State) (nbits w : Nat) (i : Instr), decodeTableWord nbits w = some i → step (s.withFetchWord nbits w) = exec i s

/-! ### The commands -/

/-- R141: a legal command at idle performs START inside the host's step. BUF, POLY, ERR, ERRCODE and everything outside the
block are unchanged. -/
def Obligations.LegalCommandStarts : Prop :=
  ∀ s : State, s.block.busy = false →
    exec .compute s = .next { s with block := { s.block with
      op := 1#2, rem := 0x00#8, pos := 0, busy := true, done := false, matched := false } } ∧
    exec .verify s = .next { s with block := { s.block with
      op := 2#2, rem := 0x00#8, pos := 0, busy := true, done := false, matched := false } } ∧
    exec .insert s = .next { s with block := { s.block with
      op := 3#2, rem := 0x00#8, pos := 0, busy := true, done := false, matched := false } }

/-- R146: COMPUTE at idle, and after it the engine's 8·N + 1 steps with no host step between, leave the checksum of the buffer
in REM, DONE set, MATCH clear and all else as it was; while an operation runs the command is turned away by BusyAccess. -/
def Obligations.ComputeOperation : Prop :=
  ∀ s : State,
    (s.block.busy = false → ∃ s1, exec .compute s = .next s1 ∧
      runs (8 * s.block.length + 1) (s1.engineNext (8 * s.block.length + 1)) =
        .next { s with block := { s.block with
          rem := s.block.buf.compute s.block.poly, pos := 8 * s.block.length, op := 1#2,
          busy := false, done := true, matched := false } }) ∧
    (s.block.busy = true → exec .compute s =
      .next { s with block := { s.block with err := true, errCode := if s.block.err then s.block.errCode else 3#3 } })

/-- R147: the same for VERIFY, with MATCH = 1 exactly when the remainder is zero; a false result is no fault. -/
def Obligations.VerifyOperation : Prop :=
  ∀ s : State,
    (s.block.busy = false → ∃ s1, exec .verify s = .next s1 ∧
      runs (8 * s.block.length + 1) (s1.engineNext (8 * s.block.length + 1)) =
        .next { s with block := { s.block with
          rem := s.block.buf.compute s.block.poly, pos := 8 * s.block.length, op := 2#2,
          busy := false, done := true, matched := decide (s.block.buf.compute s.block.poly = 0x00#8) } }) ∧
    (s.block.busy = true → exec .verify s =
      .next { s with block := { s.block with err := true, errCode := if s.block.err then s.block.errCode else 3#3 } })

/-- R148: the same for INSERT, whose checksum of the buffer as it was at START, placeholder included, is written into the CRC
slot; bytes 0..N-2 (`payload`) are never modified. -/
def Obligations.InsertOperation : Prop :=
  ∀ s : State,
    (s.block.busy = false → ∃ s1, exec .insert s = .next s1 ∧
      runs (8 * s.block.length + 1) (s1.engineNext (8 * s.block.length + 1)) =
        .next { s with block := { s.block with
          buf := { payload := s.block.buf.payload, slot := s.block.buf.compute s.block.poly },
          rem := s.block.buf.compute s.block.poly, pos := 8 * s.block.length, op := 3#2,
          busy := false, done := true, matched := false } }) ∧
    (s.block.busy = true → exec .insert s =
      .next { s with block := { s.block with err := true, errCode := if s.block.err then s.block.errCode else 3#3 } })

/-- R145: the whole operation under every interleaving. `pre` is any order of turns with 8·N engine turns in it, the next turn
is the engine's last one, and no line the host can reach meanwhile is a RESET. ERR and ERRCODE are as before unless a host
access faulted: they stay if ERR was set or if every such line is quiet, and otherwise a fault is a BusyAccess or a BadAccess. -/
def Obligations.InterleavedOperation : Prop :=
  ∀ (i : Instr) (s : State) (pre rest : List Agent), s.block.busy = false → s.turns = pre ++ .engine :: rest →
    pre.count .engine = 8 * s.block.length → .reset ∉ s.program.take (pre.count .host) →
    ∃ s1 t, exec i s = .next s1 ∧ runs (pre.length + 1) s1 = .next t ∧ t.turns = rest ∧
      t.block.rem = s.block.buf.compute s.block.poly ∧ t.block.pos = 8 * s.block.length ∧ t.block.op = i.opcode ∧
      t.block.busy = false ∧ t.block.done = true ∧
      t.block.matched = decide (i = .verify ∧ s.block.buf.compute s.block.poly = 0x00#8) ∧
      t.block.buf = (if i = .insert then s.block.buf.insert s.block.poly else s.block.buf) ∧
      t.block.poly = s.block.poly ∧
      (s.block.err = true → t.block.err = true ∧ t.block.errCode = s.block.errCode) ∧
      ((∀ h ∈ s.program.take (pre.count .host), h.Quiet s.block.length) →
        t.block.err = s.block.err ∧ t.block.errCode = s.block.errCode) ∧
      (s.block.err = false → (t.block.err = false ∧ t.block.errCode = s.block.errCode) ∨
        (t.block.err = true ∧ (t.block.errCode = 3#3 ∨ t.block.errCode = 4#3)))

/-- What a command leaves unchanged in its own step, whether it starts or is turned away: every address but STATUS and CRC
reads as before (so every byte of BUF, and POLY), and nothing outside the block changes; turned away, the sequencer and the
results stay too; started, ERR and ERRCODE stay. -/
def Obligations.CommandFrame : Prop :=
  ∀ (i : Instr) (s t : State), exec i s = .next t →
    (∀ a, a ≠ 1 → a ≠ 3 → t.block.readByte a = s.block.readByte a) ∧
    t.program = s.program ∧ t.reads = s.reads ∧ t.turns = s.turns ∧ t.tick = s.tick ∧ t.resets = s.resets ∧
    (s.block.busy = true → t.block.rem = s.block.rem ∧ t.block.pos = s.block.pos ∧ t.block.op = s.block.op ∧
      t.block.busy = true ∧ t.block.done = s.block.done ∧ t.block.matched = s.block.matched) ∧
    (s.block.busy = false → t.block.err = s.block.err ∧ t.block.errCode = s.block.errCode)

/-- R114 on the hardware (R149, R204): INSERT, then VERIFY on what it left, ends with MATCH = 1 exactly when the placeholder
was 0x00 before the INSERT, and REM holds that placeholder. -/
def Obligations.InsertThenVerify : Prop :=
  ∀ s : State, s.block.busy = false → ∃ s1 s2 s3 s4,
    exec .insert s = .next s1 ∧ runs (8 * s.block.length + 1) (s1.engineNext (8 * s.block.length + 1)) = .next s2 ∧
    exec .verify s2 = .next s3 ∧ runs (8 * s.block.length + 1) (s3.engineNext (8 * s.block.length + 1)) = .next s4 ∧
    s4.block.done = true ∧ s4.block.rem = s.block.buf.slot ∧ s4.block.matched = decide (s.block.buf.slot = 0x00#8)

/-- R115 on the hardware (R209): two INSERTs in a row leave BUF as it was before the first. -/
def Obligations.InsertTwiceRestores : Prop :=
  ∀ s : State, s.block.busy = false → ∃ s1 s2 s3 s4,
    exec .insert s = .next s1 ∧ runs (8 * s.block.length + 1) (s1.engineNext (8 * s.block.length + 1)) = .next s2 ∧
    exec .insert s2 = .next s3 ∧ runs (8 * s.block.length + 1) (s3.engineNext (8 * s.block.length + 1)) = .next s4 ∧
    s4.block.done = true ∧ s4.block.buf = s.block.buf

/-! ### The engine's steps -/

/-- R142. -/
def Obligations.BitstepTurn : Prop :=
  ∀ s : State, s.block.busy = true → s.block.pos < 8 * s.block.length →
    step (s.engineNext 1) = .next { s with block := { s.block with
      rem := bitstep s.block.rem s.block.poly
        ((s.block.buf.bytes.getD (s.block.pos / 8) 0x00#8).getLsbD (7 - s.block.pos % 8)),
      pos := s.block.pos + 1 } }

/-- R143, all the writes in one step. -/
def Obligations.FinishTurn : Prop :=
  ∀ s : State, s.block.busy = true → s.block.pos = 8 * s.block.length →
    step (s.engineNext 1) = .next { s with block := { s.block with
      buf := if s.block.op = 3#2 then { payload := s.block.buf.payload, slot := s.block.rem } else s.block.buf,
      matched := if s.block.op = 2#2 then decide (s.block.rem = 0x00#8) else s.block.matched,
      busy := false, done := true } }

/-- What an engine turn leaves unchanged: POLY, OP, the fault trace, everything outside the block, and every address but
STATUS, CRC and, in INSERT's FINISH, that of the CRC slot, N + 3. -/
def Obligations.EngineFrame : Prop :=
  ∀ s t : State, step (s.engineNext 1) = .next t →
    (∀ a, a ≠ 1 → a ≠ 3 →
      ¬ (s.block.busy = true ∧ s.block.op = 3#2 ∧ s.block.pos = 8 * s.block.length ∧ a = s.block.length + 3) →
      t.block.readByte a = s.block.readByte a) ∧
    t.block.poly = s.block.poly ∧ t.block.op = s.block.op ∧ t.block.err = s.block.err ∧ t.block.errCode = s.block.errCode ∧
    t.program = s.program ∧ t.reads = s.reads ∧ t.turns = s.turns ∧ t.tick = s.tick ∧ t.resets = s.resets

/-- R140: at idle the engine has no step; busy, it has one exactly while POS is at most 8·N. A step stops in no other case
(the model's own fault for that unreachable case: log entry 7), and never under the invariant. -/
def Obligations.StepStopsOnlyPastEnd : Prop :=
  (∀ s : State, s.block.busy = false → step (s.engineNext 1) = .next s) ∧
    (∀ s : State, (∃ t, step s = .next t) ∨
      (step s = .fault .sequencerPastEnd ∧ s.block.busy = true ∧ 8 * s.block.length < s.block.pos)) ∧
    ∀ s : State, Inv s.block → ∃ t, step s = .next t

/-! ### Host transactions -/

/-- R52 (with R53, R54, R56): WRITE(a, v), the tests in the rule's order, every case of address, BUSY and data. -/
def Obligations.HostWriteOutcome : Prop :=
  ∀ (s : State) (a : Nat) (v : Byte),
    ((a = 1 ∨ a = 3 ∨ s.block.length + 4 ≤ a) → step (s.hostNext (.write a v)) =
      .next { s with block := { s.block with err := true, errCode := if s.block.err then s.block.errCode else 4#3 } }) ∧
    ((a = 0 ∨ a = 2 ∨ (4 ≤ a ∧ a < s.block.length + 4)) → s.block.busy = true → step (s.hostNext (.write a v)) =
      .next { s with block := { s.block with err := true, errCode := if s.block.err then s.block.errCode else 3#3 } }) ∧
    (a = 2 → s.block.busy = false →
      step (s.hostNext (.write a v)) = .next { s with block := { s.block with poly := v } }) ∧
    (4 ≤ a → a < s.block.length + 4 → s.block.busy = false → ∃ buf : Buffer, buf.bytes = s.block.buf.bytes.set (a - 4) v ∧
      step (s.hostNext (.write a v)) = .next { s with block := { s.block with buf := buf } }) ∧
    (a = 0 → s.block.busy = false → (v = 0x01#8 ∨ v = 0x02#8 ∨ v = 0x03#8) → step (s.hostNext (.write a v)) =
      .next { s with block := { s.block with
        op := v.extractLsb' 0 2, rem := 0x00#8, pos := 0, busy := true, done := false, matched := false } }) ∧
    (a = 0 → s.block.busy = false → v ≠ 0x01#8 → v ≠ 0x02#8 → v ≠ 0x03#8 → step (s.hostNext (.write a v)) =
      .next { s with block := { s.block with err := true, errCode := if s.block.err then s.block.errCode else 2#3 } })

/-- R57: READ(a), every address. The byte returned goes to the host (`reads`, the model's own field). -/
def Obligations.HostReadOutcome : Prop :=
  ∀ (s : State) (a : Nat),
    ((a = 0 ∨ s.block.length + 4 ≤ a) → step (s.hostNext (.read a)) =
      .next { s with
        block := { s.block with err := true, errCode := if s.block.err then s.block.errCode else 4#3 }
        reads := (a, 0x00#8) :: s.reads }) ∧
    (a = 1 → step (s.hostNext (.read a)) = .next { s with reads := (a, s.block.status) :: s.reads }) ∧
    (a = 2 → step (s.hostNext (.read a)) = .next { s with reads := (a, s.block.poly) :: s.reads }) ∧
    (a = 3 → step (s.hostNext (.read a)) = .next { s with reads := (a, s.block.rem) :: s.reads }) ∧
    (4 ≤ a → a < s.block.length + 4 → step (s.hostNext (.read a)) =
      .next { s with reads := (a, s.block.buf.bytes.getD (a - 4) 0x00#8) :: s.reads })

/-- R65 for POLY and BUF: what an idle host writes is what the next read of that address returns, and every other address
reads as before. -/
def Obligations.ReadAfterWrite : Prop :=
  ∀ (s : State) (a : Nat) (v : Byte), s.block.busy = false → (a = 2 ∨ (4 ≤ a ∧ a < s.block.length + 4)) →
    ∃ t, step (s.hostNext (.write a v)) = .next t ∧
      step (t.hostNext (.read a)) = .next { t with reads := (a, v) :: t.reads } ∧
      ∀ a', a' ≠ a → t.block.readByte a' = s.block.readByte a'

/-- WAIT (R86): one READ of STATUS; the host waits on while it returned BUSY = 1. -/
def Obligations.WaitPollsStatus : Prop :=
  ∀ s : State,
    (s.block.busy = true → step (s.hostNext .wait) =
      .next { s with program := .wait :: s.program, reads := (1, s.block.status) :: s.reads }) ∧
    (s.block.busy = false → step (s.hostNext .wait) = .next { s with reads := (1, s.block.status) :: s.reads })

/-- R30: the layout of STATUS; a READ of it has no side effect, a WRITE is a BadAccess; with ERR = 0 a reachable state shows
one of four values. -/
def Obligations.StatusRegister : Prop :=
  (∀ b : Block, b.status.getLsbD 0 = b.busy ∧ b.status.getLsbD 1 = b.done ∧ b.status.getLsbD 2 = b.matched ∧
    b.status.getLsbD 3 = b.err ∧ b.status.extractLsb' 4 3 = b.errCode ∧ b.status.getLsbD 7 = false) ∧
  (∀ (s : State) (v : Byte),
    step (s.hostNext (.read 1)) = .next { s with reads := (1, s.block.status) :: s.reads } ∧
    step (s.hostNext (.write 1 v)) =
      .next { s with block := { s.block with err := true, errCode := if s.block.err then s.block.errCode else 4#3 } }) ∧
  ∀ b : Block, Inv b → Clean b →
    b.status = 0x00#8 ∨ b.status = 0x01#8 ∨ b.status = 0x02#8 ∨ b.status = 0x06#8

/-- R177, R176: the first fault sets ERR and leaves its code; a later one changes nothing at all. The codes are those of R170. -/
def Obligations.FirstFaultIsKept : Prop :=
  (∀ (b : Block) (f : HostFault), b.err = false → b.raise f = { b with err := true, errCode := f.code }) ∧
  (∀ (b : Block) (f : HostFault), b.err = true → b.raise f = b ∧ (b.raise f).status = b.status) ∧
  HostFault.code .illegalCommand = 2#3 ∧ HostFault.code .busyAccess = 3#3 ∧ HostFault.code .badAccess = 4#3

/-- Whose turn it is. Turns written in the state are taken in order; a host with no line left does nothing; when the turns run
out the free interleaving goes on with some finite block of turns and then one of each agent. How a run orders its steps is
the model's own choice of form (log entries 4 and 16); R12 leaves the order free. -/
def Obligations.TurnOrder : Prop :=
  (∀ (s : State) (h : HostOp), step (s.hostNext h) = hostAct h s) ∧
  (∀ s : State, step (s.engineNext 1) = engineTurn s) ∧
  (∀ s : State, s.program = [] → step { s with turns := .host :: s.turns } = .next s) ∧
  ∀ s : State, s.turns = [] → step s =
    step { s with turns := Config.turns s.tick ++ [.host, .engine], tick := s.tick + 1 }

/-! ### RESET and the configuration -/

/-- R200: RESET in any state, in one step. POLY and BUF are left unspecified (nothing is said of them but that N stays); the
counter `resets` is the model's own. No other step clears ERR, or changes ERRCODE once ERR is set (R181). -/
def Obligations.ResetTurn : Prop :=
  (∀ s : State, ∃ (buf : Buffer) (poly : Byte), buf.length = s.block.length ∧
    step (s.hostNext .reset) = .next { s with
      block := { buf := buf, poly := poly, rem := 0x00#8, pos := 0, op := 0#2, busy := false, done := false, matched := false,
                 err := false, errCode := 0#3 }
      resets := s.resets + 1 }) ∧
  ∀ s t : State, s.block.err = true → step s = .next t → ¬ s.ResetsNext →
    t.block.err = true ∧ t.block.errCode = s.block.errCode

/-- R36, R171: a configuration of N >= 1 bytes begins with every flag and counter zero, STATUS and CRC reading 0x00, and N
bytes of BUF; N = 0 is refused; `State.reset` is such a state. -/
def Obligations.ResetState : Prop :=
  State.instantiate 0 = .refused .invalidInput ∧
  (∀ n, 1 ≤ n → ∃ s, State.instantiate n = .next s ∧ s.block.length = n ∧
    s.block.rem = 0x00#8 ∧ s.block.pos = 0 ∧ s.block.op = 0#2 ∧ s.block.busy = false ∧ s.block.done = false ∧
    s.block.matched = false ∧ s.block.err = false ∧ s.block.errCode = 0#3 ∧
    s.block.readByte 1 = 0x00#8 ∧ s.block.readByte 3 = 0x00#8) ∧
  ∃ n, 1 ≤ n ∧ State.instantiate n = .next State.reset

/-- R152: after a RESET, busy or idle before it, no operation finishes and nothing of the abandoned one shows, until the host
writes a command: whatever else the host does, BUSY, DONE and MATCH stay 0 and REM, POS and OP stay 0. -/
def Obligations.ResetAbandonsOperation : Prop :=
  ∀ (s t u : State) (k : Nat), step (s.hostNext .reset) = .next t → (∀ h ∈ s.program, h.Harmless) → runs k t = .next u →
    u.block.busy = false ∧ u.block.done = false ∧ u.block.matched = false ∧
      u.block.rem = 0x00#8 ∧ u.block.pos = 0 ∧ u.block.op = 0#2

/-! ### Invariants and whole-machine rules -/

/-- The reset state meets the invariant, at every N. -/
def Obligations.ResetMeetsInvariant : Prop :=
  Inv State.reset.block ∧ ∀ lastIndex, Inv (State.afterReset lastIndex).block

/-- R37, the step: every step of either agent, in any state that meets (a) to (g), gives a state that meets them. -/
def Obligations.StepKeepsInvariant : Prop :=
  ∀ s t : State, Inv s.block → step s = .next t → Inv t.block

/-- R37: every state reachable from a reset state, at any N, whatever the host does and however the steps interleave, meets
(a) to (g). The reset state's program and turns are replaced by any others, since the host may do anything. -/
def Obligations.ReachableStatesMeetInvariant : Prop :=
  ∀ (lastIndex k : Nat) (program : List HostOp) (turns : List Agent) (t : State),
    runs k { State.afterReset lastIndex with program := program, turns := turns } = .next t →
    Inv t.block ∧ t.block.length = lastIndex + 1

/-- R5: N is constant for the life of the instance. -/
def Obligations.LengthNeverChanges : Prop :=
  ∀ s t : State, step s = .next t → t.block.length = s.block.length

/-- R55: while an operation runs every WRITE to CMD, POLY or BUF is refused by a BusyAccess and discarded; so, RESET apart, POLY
and OP do not change and BUF changes by INSERT's FINISH only, and that in the CRC slot only. -/
def Obligations.BusyProtectsOperands : Prop :=
  (∀ (s : State) (a : Nat) (v : Byte), s.block.busy = true → (a = 0 ∨ a = 2 ∨ (4 ≤ a ∧ a < s.block.length + 4)) →
    step (s.hostNext (.write a v)) =
      .next { s with block := { s.block with err := true, errCode := if s.block.err then s.block.errCode else 3#3 } }) ∧
  ∀ s t : State, s.block.busy = true → step s = .next t → ¬ s.ResetsNext →
    t.block.poly = s.block.poly ∧ t.block.op = s.block.op ∧
      (t.block.buf = s.block.buf ∨
        (s.block.op = 3#2 ∧ s.block.pos = 8 * s.block.length ∧ t.block.busy = false ∧ t.block.done = true ∧
          t.block.buf = { payload := s.block.buf.payload, slot := s.block.rem }))

/-- R149: at idle, results persist through any number of steps in which the host neither writes a command nor resets. -/
def Obligations.ResultsPersist : Prop :=
  ∀ (s t : State) (k : Nat), s.block.busy = false → (∀ h ∈ s.program, h.Harmless) → runs k s = .next t →
    t.block.busy = false ∧ t.block.rem = s.block.rem ∧ t.block.done = s.block.done ∧ t.block.matched = s.block.matched ∧
      t.block.op = s.block.op ∧ t.block.pos = s.block.pos

/-- R151: ERR gates nothing. With any other fault trace the same step is taken, and the two next states differ in the fault
trace and in what READs of STATUS returned only. -/
def Obligations.ErrGatesNothing : Prop :=
  ∀ (s t : State) (e : Bool) (c : BitVec 3), step s = .next t →
    ∃ t', step (s.withTrace e c) = .next t' ∧
      { t' with reads := t.reads }.withTrace false 0#3 = t.withTrace false 0#3 ∧
      t'.reads.filter (fun r => r.1 ≠ 1) = t.reads.filter (fun r => r.1 ≠ 1)

/-- R213, R140: a busy engine finishes, from every state that meets the invariant, whatever finite order of turns comes first,
as long as the host does not reset. That the engine is not starved for ever is the spec's fairness, in the model's form (log
entry 4). -/
def Obligations.BusyEngineFinishes : Prop :=
  ∀ s : State, Inv s.block → s.block.busy = true → .reset ∉ s.program →
    ∃ k t, runs k s = .next t ∧ t.block.busy = false ∧ t.block.done = true ∧
      t.block.rem = s.block.buf.compute s.block.poly

/-! ### Host programs -/

/-- R87, compute(B, P): from any idle state of an instance of B's length, whatever finite order of turns comes first, the
program ends and the byte its last READ returned is the pure function's. `after` is whatever the host does next. That neither
agent waits for ever is the model's form of fairness (log entry 4; the spec's R213 promises it to the engine). -/
def Obligations.ComputeCallReturnsChecksum : Prop :=
  ∀ (s : State) (b : Buffer) (p : Byte) (after : List HostOp), s.block.busy = false → b.length = s.block.length →
    s.program = computeCall b p ++ after →
    ∃ k t, runs k s = .next t ∧ t.program = after ∧ t.block.busy = false ∧ t.reads.head? = some (3, b.compute p)

/-- R87, verify(B, P): bit 2 of the byte its last READ returned is the pure function's value. -/
def Obligations.VerifyCallReturnsMatch : Prop :=
  ∀ (s : State) (b : Buffer) (p : Byte) (after : List HostOp), s.block.busy = false → b.length = s.block.length →
    s.program = verifyCall b p ++ after →
    ∃ k t st, runs k s = .next t ∧ t.program = after ∧ t.block.busy = false ∧ t.reads.head? = some (1, st) ∧
      st.getLsbD 2 = b.verify p

/-- R87, insert(B, P): the N bytes its STORE returned, at addresses 4 to N + 3, are the pure function's value. -/
def Obligations.InsertCallReturnsBuffer : Prop :=
  ∀ (s : State) (b : Buffer) (p : Byte) (after : List HostOp), s.block.busy = false → b.length = s.block.length →
    s.program = insertCall b p ++ after →
    ∃ k t, runs k s = .next t ∧ t.program = after ∧ t.block.busy = false ∧
      ((t.reads.take b.length).reverse).map Prod.fst = List.range' 4 b.length ∧
      ((t.reads.take b.length).reverse).map Prod.snd = (b.insert p).bytes

/-! ### The divider -/

/-- R101 (a) to (e): equivalent forms and corner cases of bitstep. -/
def Obligations.BitstepForms : Prop :=
  ∀ (rem poly : Byte) (b : Bool),
    (rem <<< 1 ||| (if b then 1#8 else 0#8)) = rem.extractLsb' 0 7 ++ BitVec.ofBool b ∧
    bitstep rem poly b = (rem <<< 1) ^^^ (if b then 1#8 else 0#8) ^^^ (if rem.getLsbD 7 then poly else 0#8) ∧
    (rem.getLsbD 7 = false → bitstep rem poly b = rem.extractLsb' 0 7 ++ BitVec.ofBool b) ∧
    bitstep rem 0#8 b = rem.extractLsb' 0 7 ++ BitVec.ofBool b ∧
    bitstep 0#8 poly b = (if b then 1#8 else 0#8)

/-- R101 (f), (g): bitstep is linear in the pair of remainder and bit; for a fixed bit it is a bijection exactly when
poly[0] = 1, and two to one otherwise. -/
def Obligations.BitstepLinearAndBijective : Prop :=
  (∀ (r1 r2 poly : Byte) (b1 b2 : Bool),
    bitstep (r1 ^^^ r2) poly (b1 ^^ b2) = bitstep r1 poly b1 ^^^ bitstep r2 poly b2) ∧
  ∀ (poly : Byte) (b : Bool),
    (Function.Bijective (fun rem => bitstep rem poly b) ↔ poly.getLsbD 0 = true) ∧
    (poly.getLsbD 0 = false → ∀ r r' : Byte, bitstep r poly b = bitstep r' poly b ↔ (r' = r ∨ r' = r ^^^ (0x80#8 ^^^ (poly >>> 1))))

/-- R102: the eight bits of a byte, most significant first, and the three corner cases. -/
def Obligations.BytestepLaws : Prop :=
  ∀ rem poly x : Byte,
    bytestep rem poly x =
      bitstep (bitstep (bitstep (bitstep (bitstep (bitstep (bitstep (bitstep rem poly (x.getLsbD 7)) poly (x.getLsbD 6))
        poly (x.getLsbD 5)) poly (x.getLsbD 4)) poly (x.getLsbD 3)) poly (x.getLsbD 2)) poly (x.getLsbD 1)) poly
        (x.getLsbD 0) ∧
    bytestep 0#8 poly x = x ∧ bytestep rem 0#8 x = x ∧ bytestep rem poly x = bytestep rem poly 0#8 ^^^ x

/-- R103, R104: bytes in array order; the bit by bit form agrees with the byte by byte form; division composes; compute is the
zero-seeded division of all 8·N bits. -/
def Obligations.DivideLaws : Prop :=
  (∀ rem poly : Byte, divide rem poly [] = rem) ∧
  (∀ (rem poly x : Byte) (bytes : List Byte), divide rem poly (x :: bytes) = divide (bytestep rem poly x) poly bytes) ∧
  (∀ (rem poly : Byte) (bytes : List Byte), divideBits rem poly bytes 0 = rem) ∧
  (∀ (rem poly : Byte) (bytes : List Byte) (p : Nat), divideBits rem poly bytes (p + 1) =
    bitstep (divideBits rem poly bytes p) poly ((bytes.getD (p / 8) 0x00#8).getLsbD (7 - p % 8))) ∧
  (∀ (rem poly : Byte) (bytes : List Byte), divideBits rem poly bytes (8 * bytes.length) = divide rem poly bytes) ∧
  (∀ (rem poly : Byte) (a b : List Byte), divide rem poly (a ++ b) = divide (divide rem poly a) poly b) ∧
  ∀ (b : Buffer) (poly : Byte), b.compute poly = divideBits 0#8 poly b.bytes (8 * b.length)

/-- R110: bitstep, divide and compute as remainders of polynomials over GF(2) modulo G(x). -/
def Obligations.PolynomialRemainder : Prop :=
  (∀ (r poly : Byte) (b : Bool), bytePoly (bitstep r poly b) = (bytePoly r * Polynomial.X + bitPoly b) %ₘ generator poly) ∧
  (∀ (r poly : Byte) (bytes : List Byte), bytePoly (divide r poly bytes) =
    (bytePoly r * Polynomial.X ^ (8 * bytes.length) + streamPoly bytes) %ₘ generator poly) ∧
  ∀ (b : Buffer) (poly : Byte), bytePoly (b.compute poly) = streamPoly b.bytes %ₘ generator poly

/-- R111: division is linear in seed and bytes; so is compute, and an all-zero buffer's checksum is zero. -/
def Obligations.DivideLinear : Prop :=
  (∀ (r1 r2 poly : Byte) (a b : List Byte), a.length = b.length →
    divide (r1 ^^^ r2) poly (xorBytes a b) = divide r1 poly a ^^^ divide r2 poly b) ∧
  (∀ (a b c : Buffer) (poly : Byte), a.length = b.length → c.bytes = xorBytes a.bytes b.bytes →
    c.compute poly = a.compute poly ^^^ b.compute poly) ∧
  ∀ (n : Nat) (poly : Byte), ({ payload := List.replicate n 0#8, slot := 0#8 } : Buffer).compute poly = 0#8

/-- R112: (a) N = 1, (b) poly = 0x00, (c) leading zero bytes and leading zero bits. -/
def Obligations.DegenerateBuffers : Prop :=
  (∀ x poly : Byte, ({ payload := [], slot := x } : Buffer).compute poly = x ∧
    (({ payload := [], slot := x } : Buffer).verify poly = true ↔ x = 0#8) ∧
    ({ payload := [], slot := x } : Buffer).insert poly = { payload := [], slot := x }) ∧
  (∀ b : Buffer, b.compute 0#8 = b.slot ∧ b.insert 0#8 = b ∧ (b.verify 0#8 = true ↔ b.slot = 0#8)) ∧
  (∀ (a : List Byte) (x poly : Byte),
    ({ payload := 0#8 :: a, slot := x } : Buffer).compute poly = ({ payload := a, slot := x } : Buffer).compute poly) ∧
  ∀ (poly : Byte) (bytes : List Byte) (q : Nat), (∀ p < q, streamBit bytes p = false) → divideBits 0#8 poly bytes q = 0#8

/-- R113 (and R105's equivalent form): the last byte passes through, and VERIFY compares it with the checksum of the payload
followed by a zero byte, which is A(x)·x^8 mod G(x). -/
def Obligations.TrailingByteLaw : Prop :=
  ∀ (a : List Byte) (x poly : Byte),
    ({ payload := a, slot := x } : Buffer).compute poly = computeZeroSlot a poly ^^^ x ∧
    (({ payload := a, slot := x } : Buffer).verify poly = true ↔ x = computeZeroSlot a poly) ∧
    bytePoly (computeZeroSlot a poly) = (streamPoly a * Polynomial.X ^ 8) %ₘ generator poly

/-- R114, the round trip as the algorithm gives it. -/
def Obligations.InsertRoundTrip : Prop :=
  ∀ (b : Buffer) (poly : Byte),
    (b.insert poly).compute poly = b.slot ∧ ((b.insert poly).verify poly = true ↔ b.slot = 0#8)

/-- R115: insert is an involution, inserting into a codeword writes 0x00 into the CRC slot, and insert is not idempotent. -/
def Obligations.InsertInvolution : Prop :=
  (∀ (b : Buffer) (poly : Byte), (b.insert poly).insert poly = b ∧ (b.verify poly = true → (b.insert poly).slot = 0#8)) ∧
  ∃ (b : Buffer) (poly : Byte), (b.insert poly).insert poly ≠ b.insert poly

/-- R118: checksums of buffers that differ in the placeholder only differ by what the placeholders differ by; and a checksum of
the payload alone, appended, verifies only when A(x)·(x^8 + 1) mod G(x) = 0. -/
def Obligations.PlaceholderDependence : Prop :=
  (∀ (a : List Byte) (x x' poly : Byte),
    (({ payload := a, slot := x } : Buffer).insert poly).slot = computeZeroSlot a poly ^^^ x ∧
    (({ payload := a, slot := x } : Buffer).insert poly).slot ^^^ (({ payload := a, slot := x' } : Buffer).insert poly).slot =
      x ^^^ x') ∧
  ∀ (a : List Byte) (poly : Byte), a ≠ [] →
    (({ payload := a, slot := divide 0#8 poly a } : Buffer).verify poly = true ↔
      (streamPoly a * (Polynomial.X ^ 8 + 1)) %ₘ generator poly = 0)

/-- R119: flipping one bit of a codeword leaves the remainder x^k mod G(x), k the weight of the bit; that is not zero, so
VERIFY is false, for every poly but 0x00; under 0x00 a flip shows exactly in the last byte. An error pattern that is itself a
multiple of G(x) goes undetected. -/
def Obligations.SingleBitFlips : Prop :=
  (∀ (b : Buffer) (poly : Byte) (q : Nat), b.verify poly = true → q < 8 * b.length →
    bytePoly ((b.flip q).compute poly) = Polynomial.X ^ (8 * b.length - 1 - q) %ₘ generator poly ∧
    (poly ≠ 0#8 → (b.flip q).verify poly = false) ∧
    (poly = 0#8 → ((b.flip q).verify poly = false ↔ 8 * b.length - 1 - q < 8))) ∧
  ∀ (b e c : Buffer) (poly : Byte), b.verify poly = true → b.length = e.length →
    streamPoly e.bytes %ₘ generator poly = 0 → c.bytes = xorBytes b.bytes e.bytes → c.verify poly = true

/-- R120: the source's scenario verifies under 0xD5 and not under 0xD6, where its remainder is 0x27, and the all-zero buffer
verifies under every polynomial. -/
def Obligations.OtherPolynomial : Prop :=
  ({ payload := [0x12#8, 0x34#8, 0x56#8], slot := 0xAD#8 } : Buffer).verify 0xD5#8 = true ∧
  ({ payload := [0x12#8, 0x34#8, 0x56#8], slot := 0xAD#8 } : Buffer).compute 0xD6#8 = 0x27#8 ∧
  ({ payload := [0x12#8, 0x34#8, 0x56#8], slot := 0xAD#8 } : Buffer).verify 0xD6#8 = false ∧
  ∀ (n : Nat) (poly : Byte), ({ payload := List.replicate n 0#8, slot := 0#8 } : Buffer).verify poly = true
end

