-- ==== Sys2Proof/Laws/State.lean ====
section
/-! SUPPORT. One lemma per field per update of the block and of the run, each true by unfolding. -/

namespace Sys2Proof.Machine

section BlockUpdates
variable (b : Block)


@[simp] theorem Block.raise_buf (f : HostFault) : (b.raise f).buf = b.buf := rfl
@[simp] theorem Block.raise_poly (f : HostFault) : (b.raise f).poly = b.poly := rfl
@[simp] theorem Block.raise_rem (f : HostFault) : (b.raise f).rem = b.rem := rfl
@[simp] theorem Block.raise_pos (f : HostFault) : (b.raise f).pos = b.pos := rfl
@[simp] theorem Block.raise_op (f : HostFault) : (b.raise f).op = b.op := rfl
@[simp] theorem Block.raise_busy (f : HostFault) : (b.raise f).busy = b.busy := rfl
@[simp] theorem Block.raise_done (f : HostFault) : (b.raise f).done = b.done := rfl
@[simp] theorem Block.raise_matched (f : HostFault) : (b.raise f).matched = b.matched := rfl
@[simp] theorem Block.raise_err (f : HostFault) : (b.raise f).err = true := rfl
@[simp] theorem Block.raise_errCode (f : HostFault) : (b.raise f).errCode = b.faultCode f := rfl

@[simp] theorem Block.start_buf (o : BitVec 2) : (b.start o).buf = b.buf := rfl
@[simp] theorem Block.start_poly (o : BitVec 2) : (b.start o).poly = b.poly := rfl
@[simp] theorem Block.start_rem (o : BitVec 2) : (b.start o).rem = 0#8 := rfl
@[simp] theorem Block.start_pos (o : BitVec 2) : (b.start o).pos = 0 := rfl
@[simp] theorem Block.start_op (o : BitVec 2) : (b.start o).op = o := rfl
@[simp] theorem Block.start_busy (o : BitVec 2) : (b.start o).busy = true := rfl
@[simp] theorem Block.start_done (o : BitVec 2) : (b.start o).done = false := rfl
@[simp] theorem Block.start_matched (o : BitVec 2) : (b.start o).matched = false := rfl
@[simp] theorem Block.start_err (o : BitVec 2) : (b.start o).err = b.err := rfl
@[simp] theorem Block.start_errCode (o : BitVec 2) : (b.start o).errCode = b.errCode := rfl

@[simp] theorem Block.bitStep_buf : (b.bitStep).buf = b.buf := rfl
@[simp] theorem Block.bitStep_poly : (b.bitStep).poly = b.poly := rfl
@[simp] theorem Block.bitStep_rem : (b.bitStep).rem = bitstep b.rem b.poly b.inputBit := rfl
@[simp] theorem Block.bitStep_pos : (b.bitStep).pos = b.pos + 1 := rfl
@[simp] theorem Block.bitStep_op : (b.bitStep).op = b.op := rfl
@[simp] theorem Block.bitStep_busy : (b.bitStep).busy = b.busy := rfl
@[simp] theorem Block.bitStep_done : (b.bitStep).done = b.done := rfl
@[simp] theorem Block.bitStep_matched : (b.bitStep).matched = b.matched := rfl
@[simp] theorem Block.bitStep_err : (b.bitStep).err = b.err := rfl
@[simp] theorem Block.bitStep_errCode : (b.bitStep).errCode = b.errCode := rfl

@[simp] theorem Block.finish_buf : (b.finish).buf = b.finishBuf := rfl
@[simp] theorem Block.finish_poly : (b.finish).poly = b.poly := rfl
@[simp] theorem Block.finish_rem : (b.finish).rem = b.rem := rfl
@[simp] theorem Block.finish_pos : (b.finish).pos = b.pos := rfl
@[simp] theorem Block.finish_op : (b.finish).op = b.op := rfl
@[simp] theorem Block.finish_busy : (b.finish).busy = false := rfl
@[simp] theorem Block.finish_done : (b.finish).done = true := rfl
@[simp] theorem Block.finish_matched : (b.finish).matched = b.finishMatch := rfl
@[simp] theorem Block.finish_err : (b.finish).err = b.err := rfl
@[simp] theorem Block.finish_errCode : (b.finish).errCode = b.errCode := rfl

@[simp] theorem Block.reset_buf (e : Nat) : (b.reset e).buf = Buffer.afterReset b.buf.payload.length e := rfl
@[simp] theorem Block.reset_poly (e : Nat) : (b.reset e).poly = Config.resetPoly e := rfl
@[simp] theorem Block.reset_rem (e : Nat) : (b.reset e).rem = 0#8 := rfl
@[simp] theorem Block.reset_pos (e : Nat) : (b.reset e).pos = 0 := rfl
@[simp] theorem Block.reset_op (e : Nat) : (b.reset e).op = 0#2 := rfl
@[simp] theorem Block.reset_busy (e : Nat) : (b.reset e).busy = false := rfl
@[simp] theorem Block.reset_done (e : Nat) : (b.reset e).done = false := rfl
@[simp] theorem Block.reset_matched (e : Nat) : (b.reset e).matched = false := rfl
@[simp] theorem Block.reset_err (e : Nat) : (b.reset e).err = false := rfl
@[simp] theorem Block.reset_errCode (e : Nat) : (b.reset e).errCode = 0#3 := rfl

@[simp] theorem Block.withTrace_buf (e : Bool) (c : BitVec 3) : (b.withTrace e c).buf = b.buf := rfl
@[simp] theorem Block.withTrace_poly (e : Bool) (c : BitVec 3) : (b.withTrace e c).poly = b.poly := rfl
@[simp] theorem Block.withTrace_rem (e : Bool) (c : BitVec 3) : (b.withTrace e c).rem = b.rem := rfl
@[simp] theorem Block.withTrace_pos (e : Bool) (c : BitVec 3) : (b.withTrace e c).pos = b.pos := rfl
@[simp] theorem Block.withTrace_op (e : Bool) (c : BitVec 3) : (b.withTrace e c).op = b.op := rfl
@[simp] theorem Block.withTrace_busy (e : Bool) (c : BitVec 3) : (b.withTrace e c).busy = b.busy := rfl
@[simp] theorem Block.withTrace_done (e : Bool) (c : BitVec 3) : (b.withTrace e c).done = b.done := rfl
@[simp] theorem Block.withTrace_matched (e : Bool) (c : BitVec 3) : (b.withTrace e c).matched = b.matched := rfl
@[simp] theorem Block.withTrace_err (e : Bool) (c : BitVec 3) : (b.withTrace e c).err = e := rfl
@[simp] theorem Block.withTrace_errCode (e : Bool) (c : BitVec 3) : (b.withTrace e c).errCode = c := rfl

end BlockUpdates

section StateUpdates
variable (s : State)

@[simp] theorem State.onBlock_block (f : Block → Block) : (s.onBlock f).block = f s.block := rfl
@[simp] theorem State.onBlock_program (f : Block → Block) : (s.onBlock f).program = s.program := rfl
@[simp] theorem State.onBlock_reads (f : Block → Block) : (s.onBlock f).reads = s.reads := rfl
@[simp] theorem State.onBlock_turns (f : Block → Block) : (s.onBlock f).turns = s.turns := rfl
@[simp] theorem State.onBlock_tick (f : Block → Block) : (s.onBlock f).tick = s.tick := rfl
@[simp] theorem State.onBlock_resets (f : Block → Block) : (s.onBlock f).resets = s.resets := rfl

@[simp] theorem State.command_block (i : Instr) : (s.command i).block = s.block.command i.opcode := rfl
@[simp] theorem State.command_program (i : Instr) : (s.command i).program = s.program := rfl
@[simp] theorem State.command_reads (i : Instr) : (s.command i).reads = s.reads := rfl
@[simp] theorem State.command_turns (i : Instr) : (s.command i).turns = s.turns := rfl
@[simp] theorem State.command_tick (i : Instr) : (s.command i).tick = s.tick := rfl
@[simp] theorem State.command_resets (i : Instr) : (s.command i).resets = s.resets := rfl

@[simp] theorem State.withCommandByte_block (v : Byte) : (s.withCommandByte v).block = s.block := rfl
@[simp] theorem State.withCommandByte_program (v : Byte) : (s.withCommandByte v).program = .write 0 v :: s.program := rfl
@[simp] theorem State.withCommandByte_reads (v : Byte) : (s.withCommandByte v).reads = s.reads := rfl
@[simp] theorem State.withCommandByte_turns (v : Byte) : (s.withCommandByte v).turns = .host :: s.turns := rfl
@[simp] theorem State.withCommandByte_tick (v : Byte) : (s.withCommandByte v).tick = s.tick := rfl
@[simp] theorem State.withCommandByte_resets (v : Byte) : (s.withCommandByte v).resets = s.resets := rfl

@[simp] theorem State.hostNext_block (h : HostOp) : (s.hostNext h).block = s.block := rfl
@[simp] theorem State.hostNext_program (h : HostOp) : (s.hostNext h).program = h :: s.program := rfl
@[simp] theorem State.hostNext_reads (h : HostOp) : (s.hostNext h).reads = s.reads := rfl
@[simp] theorem State.hostNext_turns (h : HostOp) : (s.hostNext h).turns = .host :: s.turns := rfl
@[simp] theorem State.hostNext_tick (h : HostOp) : (s.hostNext h).tick = s.tick := rfl
@[simp] theorem State.hostNext_resets (h : HostOp) : (s.hostNext h).resets = s.resets := rfl

@[simp] theorem State.engineNext_block (k : Nat) : (s.engineNext k).block = s.block := rfl
@[simp] theorem State.engineNext_program (k : Nat) : (s.engineNext k).program = s.program := rfl
@[simp] theorem State.engineNext_reads (k : Nat) : (s.engineNext k).reads = s.reads := rfl
@[simp] theorem State.engineNext_turns (k : Nat) : (s.engineNext k).turns = List.replicate k .engine ++ s.turns := rfl
@[simp] theorem State.engineNext_tick (k : Nat) : (s.engineNext k).tick = s.tick := rfl
@[simp] theorem State.engineNext_resets (k : Nat) : (s.engineNext k).resets = s.resets := rfl

@[simp] theorem State.withTrace_block (e : Bool) (c : BitVec 3) : (s.withTrace e c).block = s.block.withTrace e c := rfl
@[simp] theorem State.withTrace_program (e : Bool) (c : BitVec 3) : (s.withTrace e c).program = s.program := rfl
@[simp] theorem State.withTrace_reads (e : Bool) (c : BitVec 3) : (s.withTrace e c).reads = s.reads := rfl
@[simp] theorem State.withTrace_turns (e : Bool) (c : BitVec 3) : (s.withTrace e c).turns = s.turns := rfl
@[simp] theorem State.withTrace_tick (e : Bool) (c : BitVec 3) : (s.withTrace e c).tick = s.tick := rfl
@[simp] theorem State.withTrace_resets (e : Bool) (c : BitVec 3) : (s.withTrace e c).resets = s.resets := rfl

@[simp] theorem hostRead_block (a : Nat) : (hostRead a s).block = s.block.afterRead a := rfl
@[simp] theorem hostRead_program (a : Nat) : (hostRead a s).program = s.program := rfl
@[simp] theorem hostRead_reads (a : Nat) : (hostRead a s).reads = (a, s.block.readByte a) :: s.reads := rfl
@[simp] theorem hostRead_turns (a : Nat) : (hostRead a s).turns = s.turns := rfl
@[simp] theorem hostRead_tick (a : Nat) : (hostRead a s).tick = s.tick := rfl
@[simp] theorem hostRead_resets (a : Nat) : (hostRead a s).resets = s.resets := rfl

@[simp] theorem hostReset_block : (hostReset s).block = s.block.reset s.resets := rfl
@[simp] theorem hostReset_program : (hostReset s).program = s.program := rfl
@[simp] theorem hostReset_reads : (hostReset s).reads = s.reads := rfl
@[simp] theorem hostReset_turns : (hostReset s).turns = s.turns := rfl
@[simp] theorem hostReset_tick : (hostReset s).tick = s.tick := rfl
@[simp] theorem hostReset_resets : (hostReset s).resets = s.resets + 1 := rfl

end StateUpdates

end Sys2Proof.Machine
end

