-- ==== Sys2Proof/Laws/Memory.lean ====
section
/-! SUPPORT. The laws of the buffer memory: reads after writes, the length, the canonical form of its cells. -/

namespace Sys2Proof.Machine

variable (b : Buffer)

@[simp] theorem Buffer.length_bytes : b.bytes.length = b.length := by simp [Buffer.bytes, Buffer.length]

theorem Buffer.length_pos : 0 < b.length := Nat.succ_pos _

@[simp] theorem Buffer.length_withSlot (v : Byte) : ({ b with slot := v } : Buffer).length = b.length := rfl

@[simp] theorem Buffer.length_afterReset (k e : Nat) : (Buffer.afterReset k e).length = k + 1 := by
  simp [Buffer.afterReset, Buffer.length]

/-- Two buffers with the same bytes are the same buffer: the state has one form for each contents of BUF. -/
theorem Buffer.bytes_injective {b c : Buffer} (h : b.bytes = c.bytes) : b = c := by
  obtain ⟨p, x⟩ := b
  obtain ⟨q, y⟩ := c
  obtain ⟨hp, hx⟩ := List.append_inj' h rfl
  simp_all

/-- A write inside the buffer is the write of one element of the sequence of bytes. -/
theorem Buffer.bytes_set {i : Nat} (h : i < b.length) (v : Byte) : (b.set i v).bytes = b.bytes.set i v := by
  unfold Buffer.length at h
  unfold Buffer.set
  split
  · simp [Buffer.bytes, *]
  · have hi : i = b.payload.length := by omega
    simp [Buffer.bytes, hi]

@[simp] theorem Buffer.length_set (i : Nat) (v : Byte) : (b.set i v).length = b.length := by
  unfold Buffer.set
  split
  · simp [Buffer.length]
  · split <;> rfl

/-- The last byte of the sequence is the CRC slot. -/
theorem Buffer.get_slot : b.get (b.length - 1) = b.slot := by
  simp [Buffer.get, Buffer.bytes, Buffer.length]

theorem Buffer.get_set_self {i : Nat} (h : i < b.length) (v : Byte) : (b.set i v).get i = v := by
  have h' : i < b.bytes.length := by simpa using h
  simp only [Buffer.get, b.bytes_set h, List.getD_eq_getElem?_getD, List.getElem?_set_self h', Option.getD_some]

theorem Buffer.get_set_other {i j : Nat} (h : i < b.length) (hj : j ≠ i) (v : Byte) : (b.set i v).get j = b.get j := by
  simp [Buffer.get, b.bytes_set h, List.getD, List.getElem?_set_ne hj.symm]

@[simp] theorem Buffer.length_cells : b.cells.length = b.length := by simp [Buffer.cells]

theorem Buffer.cells_addresses : b.cells.map Prod.fst = List.range' 4 b.length := by
  have h : b.cells.map Prod.fst = (b.bytes.zipIdx 4).map Prod.snd := by simp [Buffer.cells, Function.comp_def]
  rw [h, List.zipIdx_eq_zip_range', List.map_snd_zip (by simp)]
  simp

theorem Buffer.cells_bytes : b.cells.map Prod.snd = b.bytes := by
  have h : b.cells.map Prod.snd = (b.bytes.zipIdx 4).map Prod.fst := by simp [Buffer.cells, Function.comp_def]
  rw [h, List.zipIdx_eq_zip_range', List.map_fst_zip (by simp)]

/-- Every buffer's memory is in canonical form, so every operation that answers a buffer keeps the form. -/
theorem Buffer.cells_wf : Memory.wf b.cells = true := by
  have h : b.cells ≠ [] := by
    intro h
    have := b.length_cells
    simp [h, Buffer.length] at this
  simp [Memory.wf, h, b.cells_addresses]

/-- Equal memories are equal data. -/
theorem Buffer.cells_injective {b c : Buffer} (h : b.cells = c.cells) : b = c :=
  Buffer.bytes_injective (by rw [← b.cells_bytes, h, c.cells_bytes])

/-- The memory of the state after reset is in canonical form. -/
theorem reset_memory_wf : Memory.wf State.reset.block.buf.cells = true := Buffer.cells_wf _

/-- Every step keeps the memory in canonical form. -/
theorem step_keeps_memory_wf {s t : State} (_ : step s = .next t) : Memory.wf t.block.buf.cells = true := Buffer.cells_wf _

/-! The address map -/

@[simp] theorem target_zero (n : Nat) : target n 0 = .cmd := rfl
@[simp] theorem target_one (n : Nat) : target n 1 = .status := rfl
@[simp] theorem target_two (n : Nat) : target n 2 = .poly := rfl
@[simp] theorem target_three (n : Nat) : target n 3 = .crc := rfl

theorem target_buf {n a : Nat} (h : 4 ≤ a) (h' : a < n + 4) : target n a = .buf (a - 4) := by
  obtain ⟨i, rfl⟩ : ∃ i, a = i + 4 := ⟨a - 4, by omega⟩
  have hi : i < n := by omega
  simp [target, hi]

theorem target_unmapped {n a : Nat} (h : n + 4 ≤ a) : target n a = .unmapped := by
  obtain ⟨i, rfl⟩ : ∃ i, a = i + 4 := ⟨a - 4, by omega⟩
  have hi : ¬ i < n := by omega
  simp [target, hi]

/-- Every address is one of the four registers, a buffer byte, or unmapped. -/
theorem address_cases (n a : Nat) : a = 0 ∨ a = 1 ∨ a = 2 ∨ a = 3 ∨ (4 ≤ a ∧ a < n + 4) ∨ n + 4 ≤ a := by omega

end Sys2Proof.Machine
end

