-- ==== Sys2Proof/Laws/Ops.lean ====
section
/-! SUPPORT. What each shared operation can do, said once: provers cite these instead of unfolding the step. -/

namespace Sys2Proof.Machine

/-! The decoder -/

/-- The decoder accepts exactly the well-formed command bytes. -/
theorem decode_ok_iff_wellFormed (v : Byte) : (∃ i, decode v = .ok i) ↔ WellFormed.commandByte v = true := by
  have h : ∀ v : Byte, (match decode v with | .ok _ => true | .error _ => false) = WellFormed.commandByte v := by decide +revert
  rw [← h v]
  cases decode v <;> simp

/-- A byte that decodes is the byte of its command. -/
theorem decode_ok {v : Byte} {i : Instr} (h : decode v = .ok i) : v = encode i := by
  have h' : ∀ v : Byte, (match decode v with | .ok i => decide (v = encode i) | .error _ => true) = true := by decide +revert
  have := h' v
  rw [h] at this
  simpa using this

/-! The block -/

theorem Block.raise_of_err {b : Block} (h : b.err = true) (f : HostFault) : b.raise f = b := by
  cases b; simp_all [Block.raise, Block.faultCode]

/-- Everything the engine's step can do. -/
theorem Block.engineStep_cases {b c : Block} (h : b.engineStep = .next c) :
    (b.busy = false ∧ c = b) ∨ (b.busy = true ∧ b.pos < b.bits ∧ c = b.bitStep) ∨
      (b.busy = true ∧ b.pos = b.bits ∧ c = b.finish) := by
  unfold Block.engineStep at h
  split at h
  · split at h
    · simp_all
    · split at h <;> simp_all
  · simp_all

@[simp] theorem Block.length_raise (b : Block) (f : HostFault) : (b.raise f).length = b.length := rfl
@[simp] theorem Block.length_start (b : Block) (o : BitVec 2) : (b.start o).length = b.length := rfl
@[simp] theorem Block.length_bitStep (b : Block) : b.bitStep.length = b.length := rfl
@[simp] theorem Block.length_finish (b : Block) : b.finish.length = b.length := by
  simp only [Block.length, Block.finish_buf, Block.finishBuf]; split <;> simp
@[simp] theorem Block.length_reset (b : Block) (e : Nat) : (b.reset e).length = b.length := by
  simp [Block.length]
  rfl

/-- Everything a READ can do to the block. -/
theorem Block.afterRead_cases (b : Block) (a : Nat) : b.afterRead a = b ∨ b.afterRead a = b.raise .badAccess := by
  unfold Block.afterRead; split <;> simp

/-! What each address reads as -/

@[simp] theorem Block.readByte_cmd (b : Block) : b.readByte 0 = 0#8 := rfl
@[simp] theorem Block.readByte_status (b : Block) : b.readByte 1 = b.status := rfl
@[simp] theorem Block.readByte_poly (b : Block) : b.readByte 2 = b.poly := rfl
@[simp] theorem Block.readByte_crc (b : Block) : b.readByte 3 = b.rem := rfl

theorem Block.readByte_buf (b : Block) {a : Nat} (h : 4 ≤ a) (h' : a < b.length + 4) : b.readByte a = b.buf.get (a - 4) := by
  unfold Block.readByte; rw [target_buf h h']

theorem Block.readByte_unmapped (b : Block) {a : Nat} (h : b.length + 4 ≤ a) : b.readByte a = 0#8 := by
  unfold Block.readByte; rw [target_unmapped h]

/-- Blocks of one length with the same POLY and the same buffer byte at `a`, if `a` names one, read alike there, STATUS and
CRC apart. -/
theorem Block.readByte_congr {b c : Block} (hlen : b.length = c.length) (hpoly : b.poly = c.poly) {a : Nat} (hs : a ≠ 1)
    (hc : a ≠ 3) (hbuf : 4 ≤ a → a < c.length + 4 → b.buf.get (a - 4) = c.buf.get (a - 4)) :
    b.readByte a = c.readByte a := by
  rcases address_cases c.length a with rfl | rfl | rfl | rfl | ⟨h, h'⟩ | h
  · rfl
  · exact absurd rfl hs
  · exact hpoly
  · exact absurd rfl hc
  · rw [b.readByte_buf h (hlen ▸ h'), c.readByte_buf h h', hbuf h h']
  · rw [b.readByte_unmapped (hlen ▸ h), c.readByte_unmapped h]

/-- Bit 0 of STATUS, the one WAIT looks at. -/
@[simp] theorem Block.status_bit_busy (b : Block) : b.status.getLsbD 0 = b.busy := by
  have h : ∀ (c : BitVec 3) (e m d y : Bool), (0#1 ++ (c ++ (BitVec.ofBool e ++ (BitVec.ofBool m ++ (BitVec.ofBool d ++
      BitVec.ofBool y)))) : Byte).getLsbD 0 = y := by decide
  exact h _ _ _ _ _

/-! The run -/

/-- What a step can do to a block: nothing, record a fault (BusyAccess only while busy, IllegalCommand only at idle), an
idle write of POLY or BUF, a START, a BITSTEP, a FINISH. RESET is apart. -/
inductive BlockChange (b : Block) : Block → Prop where
  | same : BlockChange b b
  | badAccess : BlockChange b (b.raise .badAccess)
  | busyAccess (busy : b.busy = true) : BlockChange b (b.raise .busyAccess)
  | illegalCommand (idle : b.busy = false) : BlockChange b (b.raise .illegalCommand)
  | poly (idle : b.busy = false) (v : Byte) : BlockChange b { b with poly := v }
  | buf (idle : b.busy = false) (i : Nat) (lt : i < b.length) (v : Byte) : BlockChange b { b with buf := b.buf.set i v }
  | start (idle : b.busy = false) (i : Instr) : BlockChange b (b.start i.opcode)
  | bitStep (busy : b.busy = true) (more : b.pos < b.bits) : BlockChange b b.bitStep
  | finish (busy : b.busy = true) (all : b.pos = b.bits) : BlockChange b b.finish

theorem Block.command_change (i : Instr) (b : Block) : BlockChange b (b.command i.opcode) := by
  unfold Block.command; split
  · exact .busyAccess ‹_›
  · exact .start (Bool.eq_false_iff.2 ‹_›) i

theorem Block.afterRead_change (b : Block) (a : Nat) : BlockChange b (b.afterRead a) := by
  rcases b.afterRead_cases a with h | h <;> rw [h]
  exacts [.same, .badAccess]

theorem exec_next (i : Instr) (s : State) : exec i s = .next (s.command i) := by cases i <;> rfl

/-- A WRITE answers a next state that differs from the one before in its block only. -/
theorem hostWrite_next (a : Nat) (v : Byte) (s : State) :
    ∃ c, BlockChange s.block c ∧ hostWrite a v s = .next { s with block := c } := by
  unfold hostWrite
  split
  · split
    · exact ⟨_, Block.command_change _ _, exec_next _ _⟩
    · refine ⟨_, ?_, rfl⟩
      unfold Block.badCommand; split
      · exact .busyAccess ‹_›
      · exact .illegalCommand (Bool.eq_false_iff.2 ‹_›)
  · exact ⟨_, .badAccess, rfl⟩
  · refine ⟨_, ?_, rfl⟩
    unfold Block.writePoly; split
    · exact .busyAccess ‹_›
    · exact .poly (Bool.eq_false_iff.2 ‹_›) v
  · exact ⟨_, .badAccess, rfl⟩
  · rename_i i h
    refine ⟨_, ?_, rfl⟩
    unfold Block.writeBuf; split
    · exact .busyAccess ‹_›
    · refine .buf (Bool.eq_false_iff.2 ‹_›) i ?_ v
      unfold target at h
      split at h <;> try simp at h
      split at h <;> simp_all
  · exact ⟨_, .badAccess, rfl⟩

/-- Everything the host's turn can do. -/
theorem hostTurn_cases {s t : State} (h : hostTurn s = .next t) :
    (s.program = [] ∧ t = s) ∨
      ∃ op rest, s.program = op :: rest ∧ hostAct op { s with program := rest } = .next t := by
  unfold hostTurn at h
  split at h
  · exact .inl ⟨‹_›, by simpa using h.symm⟩
  · exact .inr ⟨_, _, ‹_›, h⟩

/-- Everything one line of the host's program can do, the block's changes summed up by `BlockChange`. -/
theorem hostAct_cases {op : HostOp} {s t : State} (h : hostAct op s = .next t) :
    (∃ a, op = .read a ∧ t = hostRead a s) ∨
    (∃ a v c, op = .write a v ∧ BlockChange s.block c ∧ t = { s with block := c } ∧ hostWrite a v s = .next t) ∨
    (op = .reset ∧ t = hostReset s) ∨
    (op = .wait ∧ t = hostWait s) := by
  cases op with
  | read a => exact .inl ⟨a, rfl, by simpa [hostAct] using h.symm⟩
  | write a v =>
    obtain ⟨c, hc, he⟩ := hostWrite_next a v s
    have ht : hostWrite a v s = .next t := h
    refine .inr (.inl ⟨a, v, c, rfl, hc, ?_, ht⟩)
    rw [he] at ht
    simpa using ht.symm
  | reset => exact .inr (.inr (.inl ⟨rfl, by simpa [hostAct] using h.symm⟩))
  | wait => exact .inr (.inr (.inr ⟨rfl, by simpa [hostAct] using h.symm⟩))

/-- The turn taken changes `turns` and `tick` only. -/
theorem nextTurn_keeps (s : State) :
    (nextTurn s).2.block = s.block ∧ (nextTurn s).2.program = s.program ∧ (nextTurn s).2.reads = s.reads ∧
      (nextTurn s).2.resets = s.resets := by
  unfold nextTurn; split
  · exact ⟨rfl, rfl, rfl, rfl⟩
  · split <;> exact ⟨rfl, rfl, rfl, rfl⟩

/-- Everything a step can do to the block. -/
theorem step_block_cases {s t : State} (h : step s = .next t) :
    BlockChange s.block t.block ∨
      ((nextTurn s).1 = .host ∧ s.program.head? = some .reset ∧ t.block = s.block.reset s.resets) := by
  obtain ⟨hb, hp, -, hr⟩ := nextTurn_keeps s
  unfold step agentTurn at h
  split at h
  · rename_i hg
    rcases hostTurn_cases h with ⟨-, rfl⟩ | ⟨op, rest, hprog, hact⟩
    · exact .inl (hb ▸ .same)
    · rcases hostAct_cases hact with ⟨a, -, rfl⟩ | ⟨a, v, c, -, hc, rfl, -⟩ | ⟨rfl, rfl⟩ | ⟨-, rfl⟩
      · exact .inl (by simpa [hb] using s.block.afterRead_change a)
      · exact .inl (by simpa [hb] using hc)
      · refine .inr ⟨hg, by rw [← hp, hprog]; rfl, ?_⟩
        simp [hb, hr]
      · refine .inl ?_
        unfold hostWait
        simp only []
        split <;> simpa [hb] using s.block.afterRead_change 1
  · unfold engineTurn at h
    split at h
    · rename_i c hc
      have ht : t.block = c := by cases h; rfl
      rw [ht]
      rw [hb] at hc
      rcases Block.engineStep_cases hc with ⟨-, rfl⟩ | ⟨h1, h2, rfl⟩ | ⟨h1, h2, rfl⟩
      exacts [.inl .same, .inl (.bitStep h1 h2), .inl (.finish h1 h2)]
    · cases h
    · cases h

/-- The host's program never grows: a step leaves it, takes its first line, or (WAIT) waits on. -/
theorem step_program_suffix {s t : State} (h : step s = .next t) : t.program <:+ s.program := by
  obtain ⟨-, hp, -, -⟩ := nextTurn_keeps s
  unfold step agentTurn at h
  split at h
  · rcases hostTurn_cases h with ⟨-, rfl⟩ | ⟨op, rest, hprog, hact⟩
    · rw [hp]
    · rw [← hp, hprog]
      rcases hostAct_cases hact with ⟨a, -, rfl⟩ | ⟨a, v, c, -, -, rfl, -⟩ | ⟨rfl, rfl⟩ | ⟨rfl, rfl⟩
      · exact List.suffix_cons _ _
      · exact List.suffix_cons _ _
      · exact List.suffix_cons _ _
      · unfold hostWait
        simp only []
        split
        · exact List.suffix_refl _
        · exact List.suffix_cons _ _
  · unfold engineTurn at h
    split at h <;> cases h
    rw [hp]

/-! The step on a turn written in the state -/

theorem step_host (s : State) (h : HostOp) : step (s.hostNext h) = hostAct h s := rfl

theorem step_withCommandByte (s : State) (v : Byte) : step (s.withCommandByte v) = hostWrite 0 v s := rfl

theorem step_engine (s : State) (ts : List Agent) :
    step { s with turns := .engine :: ts } = engineTurn { s with turns := ts } := rfl

/-! Runs -/

@[simp] theorem runs_zero (s : State) : runs 0 s = .next s := rfl

theorem core_run_succ (M : Host.Core) (k : Nat) (s : M.State) :
    M.run (k + 1) s = match M.step s with | .next t => M.run k t | .fault r => .fault r | .refused r => .refused r := by
  cases h : M.step s <;> rw [Host.Core.run, h]

theorem runs_succ (k : Nat) (s : State) :
    runs (k + 1) s = match step s with | .next t => runs k t | .fault r => .fault r | .refused r => .refused r := by
  have h := core_run_succ core k s
  have hs : core.step s = step s := rfl
  rw [hs] at h
  refine h.trans ?_
  cases step s <;> rfl

theorem runs_succ_next {k : Nat} {s t : State} (h : step s = .next t) : runs (k + 1) s = runs k t := by
  rw [runs_succ, h]

/-- A run of `j + k` steps is a run of `j` and then of `k`. -/
theorem runs_add {j k : Nat} {s t : State} (h : runs j s = .next t) : runs (j + k) s = runs k t := by
  induction j generalizing s with
  | zero => cases h; simp
  | succ j ih =>
    rw [runs_succ] at h
    split at h
    · rename_i u hu
      rw [show j + 1 + k = (j + k) + 1 by omega, runs_succ_next hu]
      exact ih h
    · cases h
    · cases h

/-- What every step keeps, every run keeps. -/
theorem runs_keeps {P : State → Prop} (hstep : ∀ s t, P s → step s = .next t → P t) {k : Nat} {s t : State} (hs : P s)
    (h : runs k s = .next t) : P t := by
  induction k generalizing s with
  | zero => cases h; exact hs
  | succ k ih =>
    rw [runs_succ] at h
    split at h
    · exact ih (hstep _ _ hs ‹_›) h
    · cases h
    · cases h

end Sys2Proof.Machine
end

