-- ==== Sys2Proof/Laws/PerInstr.lean ====
section
/-! SUPPORT. The family OpcodeRow: what spec/opcode_table.json says of a command's byte. -/

namespace Sys2Proof.Laws.OpcodeRow

/-- The command is well formed, its byte is a well-formed command byte with the reserved field zero, and its operation code
is not 0 (spec/30_encoding.md R80, R81). -/
def Statement (i : Instr) : Prop :=
  WellFormed.instr i = true ∧ WellFormed.commandByte (encode i) = true ∧ zeroField (encode i) = 0#6 ∧
    opField (encode i) = i.opcode ∧ i.opcode ≠ 0#2

theorem compute : Statement .compute := by unfold Statement; decide

theorem verify : Statement .verify := by unfold Statement; decide

theorem insert : Statement .insert := by unfold Statement; decide

end Sys2Proof.Laws.OpcodeRow
end

