-- ==== Sys2Proof/Tests/Slice0.lean ====
section
/-! SUPPORT. Tests of the model, each expected value taken from spec/ (its tables and worked examples, named in the comment),
and one witness for the hypotheses of each obligation that has some. -/

namespace Sys2Proof.Tests

open Machine Polynomial

/-! Helpers -/

/-- An idle block, nothing run yet. -/
def idleBlock (payload : List Byte) (slot poly : Byte) : Block :=
  { buf := { payload := payload, slot := slot }, poly := poly, rem := 0, pos := 0, op := 0, busy := false, done := false,
    matched := false, err := false, errCode := 0 }

/-- A run at that block with nothing planned. -/
def at_ (b : Block) : State := { block := b, program := [], reads := [], turns := [], tick := 0, resets := 1 }

/-- Whether an outcome is a next state of which `p` holds. -/
def nextIs (o : Host.Outcome State Fault Refusal) (p : State → Bool) : Bool :=
  match o with
  | .next t => p t
  | .fault _ => false
  | .refused _ => false

/-- N = 2, [A5 00], POLY D5, idle (spec/95_test_vectors.md V4). -/
def idle2 : Block := idleBlock [0xA5] 0x00 0xD5

/-- The same with COMPUTE just started. -/
def busy2 : Block := idle2.start 1

/-- The same with all 16 bits consumed, REM = 60 (V4), and operation code `o` latched. -/
def full2 (o : BitVec 2) : Block := { busy2 with op := o, pos := 16, rem := 0x60 }

/-! Well-formedness: each check refuses an ill-formed term -/

theorem test_wf_length_zero : WellFormed.bufferLength 0 = false := by decide
theorem test_wf_length_one : WellFormed.bufferLength 1 = true := by decide
theorem test_wf_reserved_bit : WellFormed.reservedZero 0x05 = false := by decide
theorem test_wf_no_operation : WellFormed.opNamed 0x00 = false := by decide
theorem test_wf_command_bytes : WellFormed.commandByte 0x83 = false ∧ WellFormed.commandByte 0x00 = false ∧
    WellFormed.commandByte 0x03 = true := by decide
theorem test_instantiate_zero_refused : State.instantiate 0 = .refused .invalidInput := rfl

/-! Decoding: words written out bit by bit from spec/30_encoding.md R80, R81 (zero field 000000, then op) -/

theorem test_decode_compute : decode 0b000000_01#8 = .ok .compute := by decide
theorem test_decode_verify : decode 0b000000_10#8 = .ok .verify := by decide
theorem test_decode_insert : decode 0b000000_11#8 = .ok .insert := by decide
theorem test_decode_zero : decode 0b000000_00#8 = .error .noOperation := by decide
theorem test_decode_reserved : decode 0b000001_01#8 = .error .reservedBitSet := by decide
theorem test_encode : encode .compute = 0x01 ∧ encode .verify = 0x02 ∧ encode .insert = 0x03 := by decide
/-- Exactly 3 of the 256 bytes are legal (spec/95_test_vectors.md V5). -/
theorem test_three_legal_bytes :
    ((List.range 256).filter (fun v => (decodeTableWord 8 v).isSome)) = [1, 2, 3] := by decide +kernel

/-- No two rows of spec/opcode_table.json overlap: mask 0xFF, three matches. -/
theorem test_rows_disjoint : List.Pairwise (· ≠ ·) [encode .compute, encode .verify, encode .insert] := by decide

/-- The host's word runs as the first instruction after reset (spec/41_operations.md R141). -/
theorem test_first_after_reset (i : Instr) :
    nextIs (step (State.reset.withFetchWord 8 (encode i).toNat)) (fun t => t.block.busy && decide (t.block.op = i.opcode)) = true := by
  cases i <;> rfl

/-! The divider (spec/95_test_vectors.md V1, V2, V3, V7) -/

theorem test_bitstep : bitstep 0x80 0xD5 true = 0xD4 ∧ bitstep 0x7F 0xD5 true = 0xFF ∧ bitstep 0xFF 0xD5 false = 0x2B ∧
    bitstep 0xC0 0x07 false = 0x87 ∧ bitstep 0x80 0x01 true = 0x00 ∧ bitstep 0x55 0xAA true = 0xAB := by decide
theorem test_bytestep : bytestep 0x12 0xD5 0x34 = 0x19 ∧ bytestep 0xFF 0x07 0x00 = 0xF3 ∧ bytestep 0xA5 0xFF 0x3C = 0x91 ∧
    bytestep 0x80 0x07 0x00 = 0x89 := by decide +kernel
theorem test_compute : Buffer.compute ⟨[0x12, 0x34, 0x56], 0x00⟩ 0xD5 = 0xAD ∧ Buffer.compute ⟨[0x12, 0x34, 0x56], 0x00⟩ 0x80 = 0x80 ∧
    Buffer.compute ⟨[0xFF], 0xFF⟩ 0x07 = 0x0C := by decide +kernel
theorem test_verify : Buffer.verify ⟨[0x12, 0x34, 0x56], 0xAD⟩ 0xD5 = true ∧ Buffer.verify ⟨[0x12, 0x34, 0x56], 0xAD⟩ 0xD6 = false := by
  decide +kernel
theorem test_insert : Buffer.insert ⟨[0x12, 0x34, 0x56], 0x01⟩ 0xD5 = ⟨[0x12, 0x34, 0x56], 0xAC⟩ := by decide +kernel
theorem test_long_message : Buffer.compute ⟨[0x31, 0x32, 0x33, 0x34, 0x35, 0x36, 0x37, 0x38, 0x39], 0x00⟩ 0x07 = 0xF4 := by
  decide +kernel
/-- The first bit is bit 7 of byte 0 (spec/00_scope.md R9). -/
theorem test_stream_order : streamBit [0xA5, 0x00] 0 = true ∧ streamBit [0xA5, 0x00] 1 = false ∧ streamBit [0x00, 0x80] 8 = true ∧
    streamBit [0x00, 0x01] 15 = true := by decide

/-! The commands, one step each -/

/-- START of each command (V4: REM = 00, POS = 0, STATUS = 01). -/
theorem test_compute_starts : nextIs (exec .compute (at_ { idle2 with done := true, rem := 0x77 }))
    (fun t => decide (t.block.status = 0x01 ∧ t.block.op = 1 ∧ t.block.rem = 0x00 ∧ t.block.buf = idle2.buf)) = true := by decide
theorem test_verify_starts : nextIs (exec .verify (at_ { idle2 with done := true, matched := true, pos := 16 }))
    (fun t => decide (t.block.status = 0x01 ∧ t.block.op = 2 ∧ t.block.pos = 0)) = true := by decide
theorem test_insert_starts : nextIs (exec .insert (at_ idle2))
    (fun t => decide (t.block.status = 0x01 ∧ t.block.op = 3 ∧ t.block.buf = idle2.buf)) = true := by decide

/-- FINISH of each command at POS = 16 (R143; V4: COMPUTE leaves REM = 60, STATUS = 02). -/
theorem test_compute_finishes : nextIs (step ((at_ (full2 1)).engineNext 1))
    (fun t => decide (t.block.status = 0x02 ∧ t.block.rem = 0x60 ∧ t.block.buf = idle2.buf)) = true := by decide
theorem test_verify_finishes : nextIs (step ((at_ { full2 2 with rem := 0x00 }).engineNext 1))
    (fun t => decide (t.block.status = 0x06 ∧ t.block.buf = idle2.buf)) = true := by decide
theorem test_insert_finishes : nextIs (step ((at_ (full2 3)).engineNext 1))
    (fun t => decide (t.block.status = 0x02 ∧ t.block.buf = ⟨[0xA5], 0x60⟩)) = true := by decide

/-- BITSTEP at POS = 8 of V4: A5 becomes 9F. -/
theorem test_bitstep_turn : nextIs (step ((at_ { busy2 with pos := 8, rem := 0xA5 }).engineNext 1))
    (fun t => decide (t.block.rem = 0x9F ∧ t.block.pos = 9 ∧ t.block.status = 0x01)) = true := by decide

/-- The model's own stop, in a state no run reaches (log entry 7). -/
theorem test_past_end_faults : step ((at_ { busy2 with pos := 17 }).engineNext 1) = .fault .sequencerPastEnd := rfl

/-! Host accesses and faults (V8, N = 2) -/

theorem test_write_illegal : nextIs (step ((at_ idle2).hostNext (.write 0 0x05)))
    (fun t => decide (t.block.status = 0x28 ∧ t.block.op = 0)) = true := by decide
theorem test_write_unmapped : nextIs (step ((at_ idle2).hostNext (.write 6 0x05)))
    (fun t => decide (t.block = { idle2 with err := true, errCode := 4 } ∧ t.block.status = 0x48)) = true := by decide
theorem test_write_buf : nextIs (step ((at_ idle2).hostNext (.write 5 0x7E)))
    (fun t => decide (t.block = { idle2 with buf := ⟨[0xA5], 0x7E⟩ })) = true := by decide
theorem test_write_busy : nextIs (step ((at_ busy2).hostNext (.write 4 0xFF)))
    (fun t => decide (t.block.status = 0x39 ∧ t.block.buf = idle2.buf)) = true := by decide
/-- Priority: an illegal byte while busy is a BusyAccess, a write of STATUS a BadAccess. -/
theorem test_write_priority : nextIs (step ((at_ busy2).hostNext (.write 0 0x00))) (fun t => decide (t.block.status = 0x39)) = true ∧
    nextIs (step ((at_ busy2).hostNext (.write 1 0x05))) (fun t => decide (t.block.status = 0x49)) = true := by decide
theorem test_read_cmd : nextIs (step ((at_ idle2).hostNext (.read 0)))
    (fun t => decide (t.reads = [(0, 0x00)] ∧ t.block.status = 0x48)) = true := by decide
theorem test_second_fault_leaves_no_trace : nextIs (step ((at_ { idle2 with err := true, errCode := 2 }).hostNext (.read 0)))
    (fun t => decide (t.block.status = 0x28)) = true := by decide
theorem test_read_buf : nextIs (step ((at_ idle2).hostNext (.read 4))) (fun t => decide (t.reads = [(4, 0xA5)])) = true := by decide
/-- RESET from a busy state with a fault on record (V9). -/
theorem test_reset : nextIs (step ((at_ { busy2 with pos := 5, rem := 0x29, err := true, errCode := 3 }).hostNext .reset))
    (fun t => decide (t.block.status = 0x00 ∧ t.block.rem = 0x00 ∧ t.block.pos = 0 ∧ t.block.op = 0 ∧ t.block.length = 2)) = true := by
  decide

/-! Witnesses: states and operands that meet the hypotheses of the obligations -/

theorem idle2_inv : Inv idle2 := by constructor <;> decide
theorem busy2_inv : Inv busy2 := by constructor <;> decide
/-- The invariant at its upper end: all 16 bits consumed, still busy. -/
theorem full2_inv : Inv (full2 1) := by constructor <;> decide +kernel

/-- IllegalCommandBytesRaise, and the illegal clause of HostWriteOutcome, at the bytes next to the legal ones. -/
theorem witness_illegal_byte : (at_ idle2).block.busy = false ∧
    (0x00#8 ≠ 0x01#8 ∧ 0x00#8 ≠ 0x02#8 ∧ 0x00#8 ≠ 0x03#8) ∧ (0x04#8 ≠ 0x01#8 ∧ 0x04#8 ≠ 0x02#8 ∧ 0x04#8 ≠ 0x03#8) := by decide
/-- StepRunsDecodedCommand. -/
theorem witness_decodes : decode 0x03 = .ok .insert ∧ decodeTableWord 8 3 = some .insert := by decide
/-- LegalCommandStarts, the idle clauses of the three operations, InsertThenVerify, InsertTwiceRestores, WaitPollsStatus,
ResultsPersist. -/
theorem witness_idle : (at_ idle2).block.busy = false := by decide
/-- The busy clauses. -/
theorem witness_busy : (at_ busy2).block.busy = true := by decide
/-- InterleavedOperation, N = 1: a host turn with a line of its own among the eight bits. -/
theorem witness_interleaved :
    let s : State := { at_ (idleBlock [] 0xC3 0x07) with
      program := [.write 4 0xFF, .read 3]
      turns := [.engine, .host] ++ List.replicate 7 .engine ++ .engine :: [.host] }
    let pre : List Agent := [.engine, .host] ++ List.replicate 7 .engine
    s.block.busy = false ∧ s.turns = pre ++ .engine :: [.host] ∧ pre.count .engine = 8 * s.block.length ∧
      .reset ∉ s.program.take (pre.count .host) := by decide
/-- InterleavedOperation, the clause of quiet lines. -/
theorem witness_quiet : ∀ h ∈ [HostOp.read 1, .read 4, .wait], h.Quiet 1 := by
  intro h hm
  simp at hm
  rcases hm with rfl | rfl | rfl <;> simp [HostOp.Quiet]
/-- CommandFrame, idle and busy. -/
theorem witness_command_next : (∃ t, exec .insert (at_ idle2) = .next t) ∧ ∃ t, exec .insert (at_ busy2) = .next t :=
  ⟨⟨_, rfl⟩, ⟨_, rfl⟩⟩
/-- BitstepTurn at both ends of its range, FinishTurn at its one value. -/
theorem witness_engine_positions : (busy2.busy = true ∧ busy2.pos < 8 * busy2.length) ∧
    (let b := { busy2 with pos := 15 }; b.busy = true ∧ b.pos < 8 * b.length) ∧
    ((full2 3).busy = true ∧ (full2 3).pos = 8 * (full2 3).length) := by decide
/-- EngineFrame, in the FINISH of an INSERT and in a BITSTEP, at an address other than the stored one. -/
theorem witness_engine_frame : (∃ t, step ((at_ (full2 3)).engineNext 1) = .next t) ∧ (∃ t, step ((at_ busy2).engineNext 1) = .next t) ∧
    (4 ≠ 1 ∧ 4 ≠ 3 ∧ 4 ≠ (full2 3).length + 3) := ⟨⟨_, rfl⟩, ⟨_, rfl⟩, by decide⟩
/-- HostWriteOutcome and HostReadOutcome, N = 2: the address ranges at their ends; no address is in two of them. -/
theorem witness_address_ranges : (4 ≤ 4 ∧ 4 < idle2.length + 4) ∧ (4 ≤ 5 ∧ 5 < idle2.length + 4) ∧ idle2.length + 4 ≤ 6 ∧
    ¬ (idle2.length + 4 ≤ 5) := by decide
/-- StatusRegister: a reachable state without a fault. -/
theorem witness_status : Inv busy2 ∧ Clean busy2 := ⟨busy2_inv, rfl⟩
/-- FirstFaultIsKept, ResetTurn's second clause, and a step that is no RESET. -/
theorem witness_fault_trace :
    let s := (at_ { idle2 with err := true, errCode := 2 }).hostNext (.read 0)
    idle2.err = false ∧ s.block.err = true ∧ (∃ t, step s = .next t) ∧ ¬ s.ResetsNext := by
  refine ⟨rfl, rfl, ⟨_, rfl⟩, ?_⟩
  rintro ⟨-, h⟩
  simp [State.hostNext] at h
/-- TurnOrder: an idle host, and a state whose turns have run out. -/
theorem witness_turns : (at_ idle2).program = [] ∧ (at_ idle2).turns = [] := by decide
/-- ResetState: the least N. -/
theorem witness_least_length : 1 ≤ 1 := Nat.le_refl 1
/-- ResultsPersist and ResetAbandonsOperation: a host that reads, waits and loads, and a run of it. -/
theorem witness_harmless : (∀ h ∈ [HostOp.read 3, .wait, .write 0 0x00], h.Harmless) ∧
    (∃ t, step ((at_ busy2).hostNext .reset) = .next t ∧ runs 0 t = .next t) ∧
    ∃ t, runs 1 { at_ idle2 with program := [.read 3], turns := [.host] } = .next t := by
  refine ⟨fun h hm => ?_, ⟨_, rfl, rfl⟩, ⟨_, rfl⟩⟩
  simp at hm
  rcases hm with rfl | rfl | rfl
  · exact ⟨by decide, fun i => by cases i <;> decide⟩
  · exact ⟨by decide, fun i => by cases i <;> decide⟩
  · exact ⟨by decide, fun i => by cases i <;> decide⟩
/-- StepStopsOnlyPastEnd, StepKeepsInvariant, LengthNeverChanges, ErrGatesNothing: a state with the invariant and a step. -/
theorem witness_invariant_step : Inv (at_ (full2 1)).block ∧ ∃ t, step ((at_ (full2 1)).engineNext 1) = .next t :=
  ⟨full2_inv, ⟨_, rfl⟩⟩
/-- ReachableStatesMeetInvariant: a run from the reset state of N = 1. -/
theorem witness_reachable : ∃ t, runs 2 { State.afterReset 0 with program := [.write 0 0x02], turns := [.host, .engine] } = .next t :=
  ⟨_, rfl⟩
/-- BusyProtectsOperands: the FINISH of an INSERT, no RESET. -/
theorem witness_busy_step :
    let s := (at_ (full2 3)).engineNext 1
    s.block.busy = true ∧ (∃ t, step s = .next t) ∧ ¬ s.ResetsNext := by
  refine ⟨rfl, ⟨_, rfl⟩, ?_⟩
  rintro ⟨-, h⟩
  simp [State.engineNext, at_] at h
/-- BusyEngineFinishes. -/
theorem witness_busy_engine : Inv (at_ busy2).block ∧ (at_ busy2).block.busy = true ∧ HostOp.reset ∉ (at_ busy2).program :=
  ⟨busy2_inv, rfl, by decide⟩
/-- The three calls, on the buffer of V4. -/
theorem witness_calls (prog : Buffer → Byte → List HostOp) :
    let s := { at_ idle2 with program := prog ⟨[0x01], 0x00⟩ 0x07 ++ [] }
    s.block.busy = false ∧ (⟨[0x01], 0x00⟩ : Buffer).length = s.block.length ∧ s.program = prog ⟨[0x01], 0x00⟩ 0x07 ++ [] :=
  ⟨rfl, rfl, rfl⟩
/-- BitstepForms (c), and both cases of BitstepLinearAndBijective (g). -/
theorem witness_bits : (0x7F#8).getLsbD 7 = false ∧ (0xD5#8).getLsbD 0 = true ∧ (0x80#8).getLsbD 0 = false := by decide
/-- DivideLinear. -/
theorem witness_xor : [0x01#8, 0xFF#8].length = [0x80#8, 0x0F#8].length ∧
    (⟨[0x81], 0xF0⟩ : Buffer).bytes = xorBytes (⟨[0x01], 0xFF⟩ : Buffer).bytes (⟨[0x80], 0x0F⟩ : Buffer).bytes := by decide
/-- DegenerateBuffers: eleven leading zero bits. -/
theorem witness_leading_zeros : ∀ p < 11, streamBit [0x00, 0x1F] p = false := by decide
/-- InsertInvolution, SingleBitFlips: a codeword (the source's scenario) and its first and last bit positions. -/
theorem witness_codeword : Buffer.verify ⟨[0x12, 0x34, 0x56], 0xAD⟩ 0xD5 = true ∧
    0 < 8 * (⟨[0x12, 0x34, 0x56], 0xAD⟩ : Buffer).length ∧ 31 < 8 * (⟨[0x12, 0x34, 0x56], 0xAD⟩ : Buffer).length ∧ 0xD5#8 ≠ 0#8 := by
  decide +kernel
/-- SingleBitFlips under poly = 0x00, and its last clause: an error pattern of zeros. -/
theorem witness_codeword_zero_poly : Buffer.verify ⟨[0x12, 0x34, 0x56], 0x00⟩ 0x00 = true ∧
    streamPoly (⟨[0x00], 0x00⟩ : Buffer).bytes %ₘ generator 0x07 = 0 ∧
    (⟨[0x00], 0x00⟩ : Buffer).bytes = xorBytes (⟨[0x00], 0x00⟩ : Buffer).bytes (⟨[0x00], 0x00⟩ : Buffer).bytes := by
  refine ⟨by decide +kernel, ?_, by decide⟩
  have h : streamPoly (⟨[0x00], 0x00⟩ : Buffer).bytes = 0 := by
    unfold streamPoly
    refine Finset.sum_eq_zero fun p hp => ?_
    have hp' : p < 16 := by simpa [Buffer.bytes] using hp
    have hz : ∀ p < 16, streamBit (⟨[0x00], 0x00⟩ : Buffer).bytes p = false := by decide
    have hb := hz p hp'
    unfold bitPoly
    rw [if_neg (by rw [hb]; decide), zero_mul]
  rw [h, Polynomial.zero_modByMonic]
/-- PlaceholderDependence. -/
theorem witness_payload : [0x12#8, 0x34#8] ≠ [] := by decide

end Sys2Proof.Tests
end

section
/-! SUPPORT. Proofs of the family 00_scope.md: N is constant (R5), and whose turn it is (R12). -/

namespace Sys2Proof.Machine

/-! ### The buffer length -/

/-- No change a step can make to a block, RESET apart, changes its buffer length. -/
theorem BlockChange.length_eq {b c : Block} (h : BlockChange b c) : c.length = b.length := by
  cases h with
  | same => rfl
  | badAccess => exact b.length_raise _
  | busyAccess => exact b.length_raise _
  | illegalCommand => exact b.length_raise _
  | poly => rfl
  | buf _ i _ v => exact b.buf.length_set i v
  | start _ i => exact b.length_start _
  | bitStep => exact b.length_bitStep
  | finish => exact b.length_finish

/-- Settles O30: every step is a `BlockChange` or a RESET, and both keep N. -/
theorem lengthNeverChanges : Obligations.LengthNeverChanges := by
  unfold Obligations.LengthNeverChanges
  intro s t h
  rcases step_block_cases h with hchange | ⟨-, -, hreset⟩
  · exact hchange.length_eq
  · rw [hreset, Block.length_reset]

/-! ### Whose turn it is -/

theorem step_of_host_turn (s : State) : step { s with turns := .host :: s.turns } = hostTurn s := rfl

/-- A host with no line left changes nothing (log entry 16). -/
theorem hostTurn_of_program_nil {s : State} (h : s.program = []) : hostTurn s = .next s := by
  unfold hostTurn; rw [h]

/-- When the turns have run out, the next turn is that of the state with the free block, a host turn and an engine turn
written in it (log entry 4). -/
theorem nextTurn_of_turns_nil {s : State} (h : s.turns = []) :
    nextTurn s = nextTurn { s with turns := Config.turns s.tick ++ [.host, .engine], tick := s.tick + 1 } := by
  unfold nextTurn
  rw [h]
  cases Config.turns s.tick with
  | nil => rfl
  | cons a rest => rfl

/-- Settles O23: the first three clauses evaluate the turn at the head of `turns`, the last writes the next block there. -/
theorem turnOrder : Obligations.TurnOrder := by
  unfold Obligations.TurnOrder
  refine ⟨step_host, fun s => step_engine s s.turns, fun s hprog => ?_, fun s hturns => ?_⟩
  · rw [step_of_host_turn, hostTurn_of_program_nil hprog]
  · unfold step
    rw [nextTurn_of_turns_nil hturns]

end Sys2Proof.Machine
end

section
/-! SUPPORT. Proofs of the family 10_state.md: the reset state (R36), STATUS (R30), the frame of an engine turn (R21, R22)
and the state invariant (R37). -/

namespace Sys2Proof.Machine

/-! ### The reset state -/

@[simp] theorem Block.length_afterReset (k e : Nat) : (Block.afterReset k e).length = k + 1 := Buffer.length_afterReset k e

theorem Block.status_afterReset (k e : Nat) : (Block.afterReset k e).status = 0#8 := by
  simp [Block.status, Block.afterReset]

theorem State.length_afterReset (k : Nat) : (State.afterReset k).block.length = k + 1 := Block.length_afterReset k 0

/-- Settles O25: a configuration of N = k + 1 bytes begins in `State.afterReset k`, whose fields and STATUS evaluate. -/
theorem resetState : Obligations.ResetState := by
  unfold Obligations.ResetState
  refine ⟨rfl, fun n hn => ?_, Config.lastIndex + 1, Nat.le_add_left _ _, rfl⟩
  obtain ⟨k, rfl⟩ := Nat.exists_eq_add_of_le' hn
  exact ⟨State.afterReset k, rfl, State.length_afterReset k, rfl, rfl, rfl, rfl, rfl, rfl, rfl, rfl,
    Block.status_afterReset k 0, rfl⟩

/-! ### STATUS: its layout and its access rules -/

/-- R30, the bit positions of the fields. -/
theorem Block.status_layout (b : Block) : b.status.getLsbD 0 = b.busy ∧ b.status.getLsbD 1 = b.done ∧
    b.status.getLsbD 2 = b.matched ∧ b.status.getLsbD 3 = b.err ∧ b.status.extractLsb' 4 3 = b.errCode ∧
    b.status.getLsbD 7 = false := by
  have h : ∀ (c : BitVec 3) (e m d y : Bool),
      let st : Byte := 0#1 ++ (c ++ (BitVec.ofBool e ++ (BitVec.ofBool m ++ (BitVec.ofBool d ++ BitVec.ofBool y))))
      st.getLsbD 0 = y ∧ st.getLsbD 1 = d ∧ st.getLsbD 2 = m ∧ st.getLsbD 3 = e ∧ st.extractLsb' 4 3 = c ∧
        st.getLsbD 7 = false := by decide
  exact h _ _ _ _ _

theorem step_read_status (s : State) :
    step (s.hostNext (.read 1)) = .next { s with reads := (1, s.block.status) :: s.reads } := rfl

theorem step_write_status (s : State) (v : Byte) :
    step (s.hostNext (.write 1 v)) = .next (s.onBlock (Block.raise .badAccess)) := rfl

/-! ### The frame of an engine turn -/

theorem step_engineNext_one (s : State) : step (s.engineNext 1) = engineTurn s := step_engine s s.turns

/-- An engine turn that answers a next state replaces the block by what the engine's step makes of it. -/
theorem engineTurn_next {s t : State} (h : engineTurn s = .next t) :
    ∃ c, s.block.engineStep = .next c ∧ t = { s with block := c } := by
  unfold engineTurn at h
  split at h
  · exact ⟨_, ‹_›, by cases h; rfl⟩
  · cases h
  · cases h

theorem Block.engineStep_keeps {b c : Block} (h : b.engineStep = .next c) :
    c.length = b.length ∧ c.poly = b.poly ∧ c.op = b.op ∧ c.err = b.err ∧ c.errCode = b.errCode := by
  rcases Block.engineStep_cases h with ⟨-, rfl⟩ | ⟨-, -, rfl⟩ | ⟨-, -, rfl⟩
  · exact ⟨rfl, rfl, rfl, rfl, rfl⟩
  · exact ⟨b.length_bitStep, rfl, rfl, rfl, rfl⟩
  · exact ⟨b.length_finish, rfl, rfl, rfl, rfl⟩

theorem Buffer.get_withSlot_of_payload (b : Buffer) (v : Byte) {i : Nat} (h : i < b.payload.length) :
    ({ b with slot := v } : Buffer).get i = b.get i := by
  simp [Buffer.get, Buffer.bytes, List.getD, List.getElem?_append_left h]

theorem Block.bits_finish (b : Block) : b.finish.bits = b.bits := congrArg (8 * ·) b.length_finish

/-- FINISH keeps every byte of BUF but INSERT's CRC slot. -/
theorem Block.finishBuf_get (b : Block) {i : Nat} (hi : i < b.length) (h : ¬ (b.op = 3#2 ∧ i + 1 = b.length)) :
    b.finishBuf.get i = b.buf.get i := by
  unfold Block.finishBuf
  split
  · rename_i hop
    have hne : i + 1 ≠ b.buf.payload.length + 1 := fun he => h ⟨hop, he⟩
    have hlt : i < b.buf.payload.length + 1 := hi
    exact b.buf.get_withSlot_of_payload b.rem (by omega)
  · rfl

/-- The engine's step leaves what every address reads as, STATUS, CRC and the CRC slot in INSERT's FINISH apart. -/
theorem Block.engineStep_readByte {b c : Block} (h : b.engineStep = .next c) {a : Nat} (hstatus : a ≠ 1) (hcrc : a ≠ 3)
    (hslot : ¬ (b.busy = true ∧ b.op = 3#2 ∧ b.pos = 8 * b.length ∧ a = b.length + 3)) : c.readByte a = b.readByte a := by
  obtain ⟨hlen, hpoly, -, -, -⟩ := Block.engineStep_keeps h
  refine Block.readByte_congr hlen hpoly hstatus hcrc fun hlow hhigh => ?_
  rcases Block.engineStep_cases h with ⟨-, rfl⟩ | ⟨-, -, rfl⟩ | ⟨hbusy, hpos, rfl⟩
  · rfl
  · rfl
  · exact b.finishBuf_get (by omega) fun ⟨hop, hlast⟩ => hslot ⟨hbusy, hop, hpos, by omega⟩

/-- Settles O15: the engine's turn replaces the block alone, by a block that the engine's step made. -/
theorem engineFrame : Obligations.EngineFrame := by
  unfold Obligations.EngineFrame
  intro s t h
  rw [step_engineNext_one] at h
  obtain ⟨c, hstep, rfl⟩ := engineTurn_next h
  obtain ⟨-, hpoly, hop, herr, hcode⟩ := Block.engineStep_keeps hstep
  exact ⟨fun a => Block.engineStep_readByte hstep, hpoly, hop, herr, hcode, rfl, rfl, rfl, rfl, rfl⟩

end Sys2Proof.Machine

namespace Sys2Proof

open Machine

/-! ### The state invariant -/

theorem inv_afterReset (k e : Nat) : Inv (Block.afterReset k e) where
  pos_le := Nat.zero_le _
  busy_flags h := nomatch h
  done_flags h := nomatch h
  fresh _ _ := ⟨rfl, rfl, rfl, rfl⟩
  match_verify h := nomatch h
  no_fault _ := rfl
  fault_code h := nomatch h
  partial_rem h := nomatch h

/-- Settles O27: both blocks are blocks after RESET. -/
theorem resetMeetsInvariant : Obligations.ResetMeetsInvariant := by
  unfold Obligations.ResetMeetsInvariant
  exact ⟨inv_afterReset _ _, fun k => inv_afterReset k 0⟩

theorem Machine.HostFault.code_of_run_time {f : HostFault} (h : f ≠ .invalidInput) :
    f.code = 2#3 ∨ f.code = 3#3 ∨ f.code = 4#3 := by
  cases f with
  | invalidInput => exact absurd rfl h
  | illegalCommand => exact .inl rfl
  | busyAccess => exact .inr (.inl rfl)
  | badAccess => exact .inr (.inr rfl)

/-- A run-time fault touches ERR and ERRCODE, hence (f) only: the code is the first fault's, or this one's. -/
theorem Inv.raise {b : Block} (h : Inv b) {f : HostFault} (hf : f ≠ .invalidInput) : Inv (b.raise f) :=
  { h with
    no_fault := fun herr => nomatch herr
    fault_code := fun _ => by
      rw [Block.raise_errCode, Block.faultCode]
      split
      · exact h.fault_code ‹_›
      · exact HostFault.code_of_run_time hf }

/-- The invariant speaks of the contents of BUF and POLY at a busy engine only, in (g). -/
theorem Inv.idle_operands {b : Block} (h : Inv b) (idle : b.busy = false) {buf : Buffer} (hlen : buf.length = b.length)
    (poly : Byte) : Inv { b with buf := buf, poly := poly } := by
  have hbits : ({ b with buf := buf, poly := poly } : Block).bits = b.bits := congrArg (8 * ·) hlen
  exact { h with
    pos_le := hbits ▸ h.pos_le
    done_flags := hbits ▸ h.done_flags
    partial_rem := fun busy => absurd (idle.symm.trans busy) Bool.false_ne_true }

theorem Inv.start {b : Block} (h : Inv b) {op : BitVec 2} (hop : op ≠ 0#2) : Inv (b.start op) :=
  { h with
    pos_le := Nat.zero_le _
    busy_flags := fun _ => ⟨rfl, rfl, hop⟩
    done_flags := fun hdone => nomatch hdone
    fresh := fun idle => nomatch idle
    match_verify := fun hmatched => nomatch hmatched
    partial_rem := fun _ => rfl }

/-- BITSTEP takes (g) from POS to POS + 1: that is the recursion of `divideBits`. -/
theorem Inv.bitStep {b : Block} (h : Inv b) (busy : b.busy = true) (more : b.pos < b.bits) : Inv b.bitStep := by
  obtain ⟨hdone, -, -⟩ := h.busy_flags busy
  exact { h with
    pos_le := more
    done_flags := fun done => absurd (hdone.symm.trans done) Bool.false_ne_true
    fresh := fun idle => absurd (idle.symm.trans busy) Bool.false_ne_true
    match_verify := fun hmatched => absurd (hdone.symm.trans (h.match_verify hmatched).1) Bool.false_ne_true
    partial_rem := fun _ => by
      rw [Block.bitStep_rem, h.partial_rem busy]
      rfl }

/-- MATCH was 0 while busy, so FINISH sets it for VERIFY with remainder zero only. -/
theorem Inv.finish_match {b : Block} (h : Inv b) (busy : b.busy = true) (hmatched : b.finishMatch = true) :
    b.op = 2#2 ∧ b.rem = 0#8 := by
  obtain ⟨-, hclear, -⟩ := h.busy_flags busy
  unfold Block.finishMatch at hmatched
  split at hmatched
  · exact ⟨‹_›, of_decide_eq_true hmatched⟩
  · exact absurd (hclear.symm.trans hmatched) Bool.false_ne_true

theorem Inv.finish {b : Block} (h : Inv b) (busy : b.busy = true) (all : b.pos = b.bits) : Inv b.finish := by
  obtain ⟨-, -, hop⟩ := h.busy_flags busy
  exact { h with
    pos_le := b.bits_finish ▸ h.pos_le
    busy_flags := fun hbusy => nomatch hbusy
    done_flags := fun _ => ⟨rfl, b.bits_finish ▸ all, hop⟩
    fresh := fun _ hdone => nomatch hdone
    match_verify := fun hmatched => ⟨rfl, h.finish_match busy hmatched⟩
    partial_rem := fun hbusy => nomatch hbusy }

theorem Instr.opcode_ne_zero (i : Instr) : i.opcode ≠ 0#2 := by cases i <;> decide

/-- No change a step can make to a block, RESET apart, breaks the invariant. -/
theorem Machine.BlockChange.keeps_inv {b c : Block} (hc : BlockChange b c) (h : Inv b) : Inv c := by
  cases hc with
  | same => exact h
  | badAccess => exact h.raise nofun
  | busyAccess => exact h.raise nofun
  | illegalCommand => exact h.raise nofun
  | poly idle v => exact h.idle_operands idle rfl v
  | buf idle i _ v => exact h.idle_operands idle (b.buf.length_set i v) b.poly
  | start _ i => exact h.start i.opcode_ne_zero
  | bitStep busy more => exact h.bitStep busy more
  | finish busy all => exact h.finish busy all

/-- Settles O28: every step is a `BlockChange` or a RESET, and both keep the invariant. -/
theorem stepKeepsInvariant : Obligations.StepKeepsInvariant := by
  unfold Obligations.StepKeepsInvariant
  intro s t h hstep
  rcases step_block_cases hstep with hchange | ⟨-, -, hreset⟩
  · exact hchange.keeps_inv h
  · rw [hreset]
    exact inv_afterReset _ _

/-- The invariant together with the buffer length `n`: what holds at reset and every step keeps. -/
def InvOfLength (n : Nat) (s : State) : Prop := Inv s.block ∧ s.block.length = n

theorem step_keeps_invOfLength {n : Nat} (s t : State) (h : InvOfLength n s) (hstep : step s = .next t) :
    InvOfLength n t := by
  obtain ⟨hinv, hlen⟩ := h
  exact ⟨stepKeepsInvariant s t hinv hstep, (lengthNeverChanges s t hstep).trans hlen⟩

/-- Settles O29: the reset block meets the invariant whatever the program and the turns, and every step keeps it. -/
theorem reachableStatesMeetInvariant : Obligations.ReachableStatesMeetInvariant := by
  unfold Obligations.ReachableStatesMeetInvariant
  intro k n program turns t h
  have hreset : InvOfLength (k + 1) { State.afterReset k with program := program, turns := turns } :=
    ⟨inv_afterReset k 0, State.length_afterReset k⟩
  exact runs_keeps step_keeps_invOfLength hreset h

/-! ### The values of STATUS without a fault -/

/-- Without a fault (d), (b) and (f) of the invariant leave four combinations of flags. -/
theorem Inv.status_of_clean {b : Block} (h : Inv b) (hclean : Clean b) :
    b.status = 0x00#8 ∨ b.status = 0x01#8 ∨ b.status = 0x02#8 ∨ b.status = 0x06#8 := by
  have herr : b.err = false := hclean
  have hcode := h.no_fault herr
  cases hbusy : b.busy with
  | true =>
    obtain ⟨hdone, hmatched, -⟩ := h.busy_flags hbusy
    simp [Block.status, hbusy, hdone, hmatched, herr, hcode]
  | false =>
    cases hdone : b.done with
    | false =>
      obtain ⟨-, -, -, hmatched⟩ := h.fresh hbusy hdone
      simp [Block.status, hbusy, hdone, hmatched, herr, hcode]
    | true => cases hmatched : b.matched <;> simp [Block.status, hbusy, hdone, hmatched, herr, hcode]

/-- Settles O21: the layout bit by bit, the two accesses, and the four values the invariant leaves without a fault. -/
theorem statusRegister : Obligations.StatusRegister := by
  unfold Obligations.StatusRegister
  exact ⟨Block.status_layout, fun s v => ⟨step_read_status s, step_write_status s v⟩, fun _ => Inv.status_of_clean⟩

end Sys2Proof
end

section
/-! SUPPORT. Proofs of the family 20_memory.md: the host's WRITE (R52 to R56) and READ (R57), what a read returns after a
write (R65), and the operands of a running operation (R55). -/

namespace Sys2Proof.Machine

/-! ### Command bytes -/

theorem decode_legal {v : Byte} (h : v = 0x01#8 ∨ v = 0x02#8 ∨ v = 0x03#8) :
    ∃ i, decode v = .ok i ∧ i.opcode = v.extractLsb' 0 2 := by
  rcases h with rfl | rfl | rfl
  exacts [⟨.compute, rfl, rfl⟩, ⟨.verify, rfl, rfl⟩, ⟨.insert, rfl, rfl⟩]

theorem decode_illegal {v : Byte} (h1 : v ≠ 0x01#8) (h2 : v ≠ 0x02#8) (h3 : v ≠ 0x03#8) : ∃ e, decode v = .error e := by
  cases h : decode v with
  | error e => exact ⟨e, rfl⟩
  | ok i =>
    have hv := decode_ok h
    cases i with
    | compute => exact absurd hv h1
    | verify => exact absurd hv h2
    | insert => exact absurd hv h3

/-- A host's word that is a command is one whose low byte decodes. -/
theorem decode_of_decodeTableWord {nbits w : Nat} {i : Instr} (h : decodeTableWord nbits w = some i) :
    decode (BitVec.ofNat 8 (w % 2 ^ nbits)) = .ok i := by
  unfold decodeTableWord at h
  split at h
  · split at h
    · rename_i j hj
      rw [hj, Option.some.inj h]
    · cases h
  · cases h

/-! ### The block's answers to a WRITE, busy and idle -/

section BusyAndIdle
variable {b : Block}

theorem Block.command_of_busy (busy : b.busy = true) (op : BitVec 2) : b.command op = b.raise .busyAccess := if_pos busy
theorem Block.badCommand_of_busy (busy : b.busy = true) : b.badCommand = b.raise .busyAccess := if_pos busy
theorem Block.writePoly_of_busy (busy : b.busy = true) (v : Byte) : b.writePoly v = b.raise .busyAccess := if_pos busy
theorem Block.writeBuf_of_busy (busy : b.busy = true) (i : Nat) (v : Byte) : b.writeBuf i v = b.raise .busyAccess :=
  if_pos busy

theorem Block.command_of_idle (idle : b.busy = false) (op : BitVec 2) : b.command op = b.start op := by
  simp [Block.command, idle]
theorem Block.badCommand_of_idle (idle : b.busy = false) : b.badCommand = b.raise .illegalCommand := by
  simp [Block.badCommand, idle]
theorem Block.writePoly_of_idle (idle : b.busy = false) (v : Byte) : b.writePoly v = { b with poly := v } := by
  simp [Block.writePoly, idle]
theorem Block.writeBuf_of_idle (idle : b.busy = false) (i : Nat) (v : Byte) :
    b.writeBuf i v = { b with buf := b.buf.set i v } := by
  simp [Block.writeBuf, idle]

end BusyAndIdle

/-! ### WRITE, one rule per target -/

theorem State.onBlock_eq {s : State} {f : Block → Block} {c : Block} (h : f s.block = c) :
    s.onBlock f = { s with block := c } := congrArg (fun b => { s with block := b }) h

section Write
variable {s : State} {a : Nat} {v : Byte}

theorem hostWrite_command {i : Instr} (h : decode v = .ok i) : hostWrite 0 v s = exec i s := by
  unfold hostWrite
  rw [target_zero]
  simp only [h]

theorem hostWrite_badCommand {e : DecodeError} (h : decode v = .error e) :
    hostWrite 0 v s = .next (s.onBlock Block.badCommand) := by
  unfold hostWrite
  rw [target_zero]
  simp only [h]

theorem hostWrite_poly : hostWrite 2 v s = .next (s.onBlock (Block.writePoly v)) := rfl

theorem hostWrite_buf (h : 4 ≤ a) (h' : a < s.block.length + 4) :
    hostWrite a v s = .next (s.onBlock (Block.writeBuf (a - 4) v)) := by
  unfold hostWrite
  rw [target_buf h h']

/-- R52, the first test: STATUS, CRC and the unmapped addresses take no WRITE, busy or idle. -/
theorem hostWrite_badAccess (h : a = 1 ∨ a = 3 ∨ s.block.length + 4 ≤ a) :
    hostWrite a v s = .next { s with block := s.block.raise .badAccess } := by
  rcases h with rfl | rfl | h
  · rfl
  · rfl
  · unfold hostWrite
    rw [target_unmapped h]
    rfl

/-- R55: while an operation runs CMD, POLY and BUF take no WRITE, whatever the byte. -/
theorem hostWrite_busyAccess (busy : s.block.busy = true) (h : a = 0 ∨ a = 2 ∨ (4 ≤ a ∧ a < s.block.length + 4)) :
    hostWrite a v s = .next { s with block := s.block.raise .busyAccess } := by
  rcases h with rfl | rfl | ⟨hlow, hhigh⟩
  · cases hv : decode v with
    | ok i => rw [hostWrite_command hv, exec_next, State.command, Block.command_of_busy busy]
    | error e => rw [hostWrite_badCommand hv, State.onBlock_eq (Block.badCommand_of_busy busy)]
  · rw [hostWrite_poly, State.onBlock_eq (Block.writePoly_of_busy busy v)]
  · rw [hostWrite_buf hlow hhigh, State.onBlock_eq (Block.writeBuf_of_busy busy (a - 4) v)]

theorem hostWrite_poly_of_idle (idle : s.block.busy = false) :
    hostWrite 2 v s = .next { s with block := { s.block with poly := v } } := by
  rw [hostWrite_poly, State.onBlock_eq (Block.writePoly_of_idle idle v)]

theorem hostWrite_buf_of_idle (idle : s.block.busy = false) (h : 4 ≤ a) (h' : a < s.block.length + 4) :
    hostWrite a v s = .next { s with block := { s.block with buf := s.block.buf.set (a - 4) v } } := by
  rw [hostWrite_buf h h', State.onBlock_eq (Block.writeBuf_of_idle idle (a - 4) v)]

theorem hostWrite_command_of_idle {i : Instr} (idle : s.block.busy = false) (h : decode v = .ok i) :
    hostWrite 0 v s = .next { s with block := s.block.start i.opcode } := by
  rw [hostWrite_command h, exec_next, State.command, Block.command_of_idle idle]

theorem hostWrite_badCommand_of_idle {e : DecodeError} (idle : s.block.busy = false) (h : decode v = .error e) :
    hostWrite 0 v s = .next { s with block := s.block.raise .illegalCommand } := by
  rw [hostWrite_badCommand h, State.onBlock_eq (Block.badCommand_of_idle idle)]

end Write

/-- Settles O17: one rule per target, in the order of R52's tests. -/
theorem hostWriteOutcome : Obligations.HostWriteOutcome := by
  unfold Obligations.HostWriteOutcome
  intro s a v
  rw [step_host]
  refine ⟨hostWrite_badAccess, fun ha busy => hostWrite_busyAccess busy ha, ?poly, ?buf, ?legal, ?illegal⟩
  case poly =>
    rintro rfl idle
    exact hostWrite_poly_of_idle idle
  case buf =>
    intro hlow hhigh idle
    have hi : a - 4 < s.block.length := by omega
    exact ⟨s.block.buf.set (a - 4) v, s.block.buf.bytes_set hi v, hostWrite_buf_of_idle idle hlow hhigh⟩
  case legal =>
    rintro rfl idle hv
    obtain ⟨i, hdecode, hop⟩ := decode_legal hv
    rw [← hop]
    exact hostWrite_command_of_idle idle hdecode
  case illegal =>
    rintro rfl idle h1 h2 h3
    obtain ⟨e, hdecode⟩ := decode_illegal h1 h2 h3
    exact hostWrite_badCommand_of_idle idle hdecode

/-- Settles O4: a WRITE to CMD runs what its byte decodes to, and the host's word is placed as such a WRITE. -/
theorem stepRunsDecodedCommand : Obligations.StepRunsDecodedCommand := by
  unfold Obligations.StepRunsDecodedCommand
  refine ⟨fun s v i h => ?_, fun s nbits w i h => ?_⟩
  · rw [step_host]
    exact hostWrite_command h
  · rw [State.withFetchWord, step_withCommandByte]
    exact hostWrite_command (decode_of_decodeTableWord h)

/-! ### READ -/

theorem Block.afterRead_badAccess {b : Block} {a : Nat} (h : a = 0 ∨ b.length + 4 ≤ a) :
    b.afterRead a = b.raise .badAccess := by
  rcases h with rfl | h
  · rfl
  · unfold Block.afterRead
    rw [target_unmapped h]

/-- R58: a READ that the map allows has no side effect. -/
theorem Block.afterRead_readable {b : Block} {a : Nat} (h : 1 ≤ a) (h' : a < b.length + 4) : b.afterRead a = b := by
  rcases address_cases b.length a with rfl | rfl | rfl | rfl | ⟨hlow, hhigh⟩ | hout
  · omega
  · rfl
  · rfl
  · rfl
  · unfold Block.afterRead
    rw [target_buf hlow hhigh]
  · omega

theorem Block.readByte_badAccess {b : Block} {a : Nat} (h : a = 0 ∨ b.length + 4 ≤ a) : b.readByte a = 0x00#8 := by
  rcases h with rfl | h
  · exact b.readByte_cmd
  · exact b.readByte_unmapped h

/-- The step of a READ that the map allows, `v` the byte it returns. -/
theorem step_read {s : State} {a : Nat} {v : Byte} (h : 1 ≤ a) (h' : a < s.block.length + 4) (hv : s.block.readByte a = v) :
    step (s.hostNext (.read a)) = .next { s with reads := (a, v) :: s.reads } := by
  rw [step_host, hostAct, hostRead, Block.afterRead_readable h h', hv]

/-- The step of a READ that the map does not allow. -/
theorem step_read_badAccess {s : State} {a : Nat} (h : a = 0 ∨ s.block.length + 4 ≤ a) :
    step (s.hostNext (.read a)) =
      .next { s with block := s.block.raise .badAccess, reads := (a, 0x00#8) :: s.reads } := by
  rw [step_host, hostAct, hostRead, Block.afterRead_badAccess h, Block.readByte_badAccess h]

/-- Settles O18: the READs the map refuses, then those it allows, each by the byte its address reads as. -/
theorem hostReadOutcome : Obligations.HostReadOutcome := by
  unfold Obligations.HostReadOutcome
  intro s a
  refine ⟨step_read_badAccess, ?status, ?poly, ?crc, fun hlow hhigh => ?buf⟩
  case status =>
    rintro rfl
    exact step_read_status s
  case poly =>
    rintro rfl
    exact step_read (by omega) (by omega) s.block.readByte_poly
  case crc =>
    rintro rfl
    exact step_read (by omega) (by omega) s.block.readByte_crc
  case buf => exact step_read (by omega) hhigh (s.block.readByte_buf hlow hhigh)

/-! ### READ after WRITE -/

/-- What an address reads as depends on N and on the one register or buffer byte it names. -/
theorem Block.readByte_congr_at {b c : Block} {a : Nat} (hlen : c.length = b.length) (hstatus : a = 1 → c.status = b.status)
    (hpoly : a = 2 → c.poly = b.poly) (hcrc : a = 3 → c.rem = b.rem)
    (hbuf : 4 ≤ a → a < b.length + 4 → c.buf.get (a - 4) = b.buf.get (a - 4)) : c.readByte a = b.readByte a := by
  rcases address_cases b.length a with rfl | rfl | rfl | rfl | ⟨hlow, hhigh⟩ | hout
  · rfl
  · exact hstatus rfl
  · exact hpoly rfl
  · exact hcrc rfl
  · rw [c.readByte_buf hlow (hlen ▸ hhigh), b.readByte_buf hlow hhigh, hbuf hlow hhigh]
  · rw [c.readByte_unmapped (hlen ▸ hout), b.readByte_unmapped hout]

theorem Block.readByte_withPoly_other (b : Block) (v : Byte) {a : Nat} (h : a ≠ 2) :
    ({ b with poly := v } : Block).readByte a = b.readByte a :=
  Block.readByte_congr_at rfl (fun _ => rfl) (fun h' => absurd h' h) (fun _ => rfl) fun _ _ => rfl

section BufferWrite
variable (b : Block) (v : Byte) {a : Nat}

theorem Block.length_setBuf (i : Nat) : ({ b with buf := b.buf.set i v } : Block).length = b.length := b.buf.length_set i v

theorem Block.readByte_setBuf_self (h : 4 ≤ a) (h' : a < b.length + 4) :
    ({ b with buf := b.buf.set (a - 4) v } : Block).readByte a = v := by
  have hi : a - 4 < b.length := by omega
  rw [Block.readByte_buf _ h (by rwa [b.length_setBuf])]
  exact b.buf.get_set_self hi v

theorem Block.readByte_setBuf_other (h : 4 ≤ a) (h' : a < b.length + 4) {a' : Nat} (hne : a' ≠ a) :
    ({ b with buf := b.buf.set (a - 4) v } : Block).readByte a' = b.readByte a' := by
  have hi : a - 4 < b.length := by omega
  refine Block.readByte_congr_at (b.length_setBuf v _) (fun _ => rfl) (fun _ => rfl) (fun _ => rfl) fun hlow _ => ?_
  exact b.buf.get_set_other hi (by omega) v

end BufferWrite

/-- Settles O19: for POLY and for a byte of BUF, what the written block reads as at that address and at every other. -/
theorem readAfterWrite : Obligations.ReadAfterWrite := by
  unfold Obligations.ReadAfterWrite
  rintro s a v idle (rfl | ⟨hlow, hhigh⟩)
  · exact ⟨_, (step_host s _).trans (hostWrite_poly_of_idle idle), step_read (by omega) (by omega) rfl,
      fun a' hne => s.block.readByte_withPoly_other v hne⟩
  · exact ⟨_, (step_host s _).trans (hostWrite_buf_of_idle idle hlow hhigh),
      step_read (by omega) (by rwa [s.block.length_setBuf]) (s.block.readByte_setBuf_self v hlow hhigh),
      fun a' hne => s.block.readByte_setBuf_other v hlow hhigh hne⟩

/-! ### The operands of a running operation -/

/-- FINISH leaves BUF alone, or it is INSERT's and writes REM into the CRC slot (R143). -/
theorem Block.finishBuf_cases (b : Block) :
    b.finishBuf = b.buf ∨ (b.op = 3#2 ∧ b.finishBuf = { payload := b.buf.payload, slot := b.rem }) := by
  unfold Block.finishBuf
  split
  · exact .inr ⟨‹_›, rfl⟩
  · exact .inl rfl

/-- No change a step can make to a busy block, RESET apart, touches POLY or OP, or BUF but in INSERT's FINISH. -/
theorem BlockChange.operands_of_busy {b c : Block} (h : BlockChange b c) (busy : b.busy = true) :
    c.poly = b.poly ∧ c.op = b.op ∧
      (c.buf = b.buf ∨ (b.op = 3#2 ∧ b.pos = 8 * b.length ∧ c.busy = false ∧ c.done = true ∧
        c.buf = { payload := b.buf.payload, slot := b.rem })) := by
  have not_idle : b.busy ≠ false := by simp [busy]
  cases h with
  | same => exact ⟨rfl, rfl, .inl rfl⟩
  | badAccess => exact ⟨rfl, rfl, .inl rfl⟩
  | busyAccess => exact ⟨rfl, rfl, .inl rfl⟩
  | illegalCommand idle => exact absurd idle not_idle
  | poly idle => exact absurd idle not_idle
  | buf idle => exact absurd idle not_idle
  | start idle => exact absurd idle not_idle
  | bitStep => exact ⟨rfl, rfl, .inl rfl⟩
  | finish _ all =>
    refine ⟨rfl, rfl, ?_⟩
    rcases b.finishBuf_cases with hsame | ⟨hop, hslot⟩
    · exact .inl hsame
    · exact .inr ⟨hop, all, rfl, rfl, hslot⟩

/-- Settles O31: the WRITEs are refused by BusyAccess, and a step that is no RESET is a `BlockChange` of a busy block. -/
theorem busyProtectsOperands : Obligations.BusyProtectsOperands := by
  unfold Obligations.BusyProtectsOperands
  refine ⟨fun s a v busy ha => (step_host s _).trans (hostWrite_busyAccess busy ha), fun s t busy hstep hreset => ?_⟩
  rcases step_block_cases hstep with hchange | ⟨hturn, hhead, -⟩
  · exact hchange.operands_of_busy busy
  · exact absurd ⟨hturn, hhead⟩ hreset

end Sys2Proof.Machine
end

section
/-! SUPPORT. Proofs of the family 30_encoding.md: the command byte (R80 to R83), WAIT (R86), and the pseudo-operations
compute, verify and insert as host programs (R87). -/

namespace Sys2Proof.Machine

/-! ### The command byte -/

theorem decode_encode (i : Instr) : decode (encode i) = .ok i := by cases i <;> rfl

/-- Settles O1: seven closed words, decoded by evaluation. -/
theorem commandWordsDecode : Obligations.CommandWordsDecode := by
  unfold Obligations.CommandWordsDecode
  decide

/-- Settles O2: both directions of the round trip. -/
theorem decodeInvertsEncode : Obligations.DecodeInvertsEncode := by
  unfold Obligations.DecodeInvertsEncode
  exact ⟨decode_encode, fun _ _ => decode_ok⟩

/-- Settles O3: the decoder refuses the byte, and an idle WRITE of a refused byte is an IllegalCommand. -/
theorem illegalCommandBytesRaise : Obligations.IllegalCommandBytesRaise := by
  unfold Obligations.IllegalCommandBytesRaise
  intro s v idle h1 h2 h3
  obtain ⟨e, hdecode⟩ := decode_illegal h1 h2 h3
  exact ⟨⟨e, hdecode⟩, (step_host s _).trans (hostWrite_badCommand_of_idle idle hdecode)⟩

/-! ### WAIT -/

theorem hostWait_of_busy {s : State} (busy : s.block.busy = true) :
    hostWait s = { s with program := .wait :: s.program, reads := (1, s.block.status) :: s.reads } :=
  if_pos (s.block.status_bit_busy.trans busy)

theorem hostWait_of_idle {s : State} (idle : s.block.busy = false) :
    hostWait s = { s with reads := (1, s.block.status) :: s.reads } :=
  if_neg (by rw [Block.readByte_status, Block.status_bit_busy, idle]; decide)

/-- Settles O20: the one READ of STATUS, after which the line stays or is done. -/
theorem waitPollsStatus : Obligations.WaitPollsStatus := by
  unfold Obligations.WaitPollsStatus
  intro s
  rw [step_host]
  exact ⟨fun busy => congrArg _ (hostWait_of_busy busy), fun idle => congrArg _ (hostWait_of_idle idle)⟩

/-! ### The bits of a whole buffer -/

theorem streamBit_cons_add_eight (x : Byte) (xs : List Byte) (p : Nat) :
    streamBit (x :: xs) (p + 8) = streamBit xs p := by
  unfold streamBit
  rw [Nat.add_div_right p (by decide), Nat.add_mod_right, List.getD_cons_succ]

/-- The first eight bits of a sequence are its first byte. -/
theorem divideBits_cons_add_eight (r poly x : Byte) (xs : List Byte) (p : Nat) :
    divideBits r poly (x :: xs) (p + 8) = divideBits (bytestep r poly x) poly xs p := by
  induction p with
  | zero => rfl
  | succ p ih =>
    rw [Nat.add_right_comm, divideBits, ih, streamBit_cons_add_eight]
    rfl

/-- R103: consuming all the bits of a sequence is consuming its bytes. -/
theorem divideBits_all (r poly : Byte) (bytes : List Byte) :
    divideBits r poly bytes (8 * bytes.length) = divide r poly bytes := by
  induction bytes generalizing r with
  | nil => rfl
  | cons x xs ih =>
    rw [List.length_cons, Nat.mul_succ, divideBits_cons_add_eight, ih]
    rfl

/-! ### An operation from START to FINISH -/

/-- The block with the first `p` bits of its stream consumed since START. -/
def Block.consumed (b : Block) (p : Nat) : Block :=
  { b with rem := divideBits 0#8 b.poly b.buf.bytes p, pos := p }

/-- The block after a whole operation (R145): START, all the bits, FINISH. -/
def Block.completed (op : BitVec 2) (b : Block) : Block := ((b.start op).consumed b.bits).finish

theorem Block.bitStep_consumed (b : Block) (p : Nat) : (b.consumed p).bitStep = b.consumed (p + 1) := rfl

theorem Block.consumed_bits_rem (op : BitVec 2) (b : Block) :
    ((b.start op).consumed b.bits).rem = b.buf.compute b.poly := by
  have h := divideBits_all 0#8 b.poly b.buf.bytes
  rw [Buffer.length_bytes] at h
  exact h

section Completed
variable (op : BitVec 2) (b : Block)

@[simp] theorem Block.completed_busy : (b.completed op).busy = false := rfl
@[simp] theorem Block.completed_length : (b.completed op).length = b.length := Block.length_finish _

theorem Block.completed_rem : (b.completed op).rem = b.buf.compute b.poly := b.consumed_bits_rem op

/-- R147: MATCH after VERIFY. -/
theorem Block.completed_verify_matched : (b.completed 2#2).matched = b.buf.verify b.poly :=
  congrArg (fun r => decide (r = 0#8)) (b.consumed_bits_rem 2#2)

/-- R148: BUF after INSERT. -/
theorem Block.completed_insert_buf : (b.completed 3#2).buf = b.buf.insert b.poly :=
  congrArg (fun r => ({ b.buf with slot := r } : Buffer)) (b.consumed_bits_rem 3#2)

end Completed

section EngineStep
variable {b : Block}

theorem Block.engineStep_of_idle (idle : b.busy = false) : b.engineStep = .next b := by
  simp [Block.engineStep, idle]

theorem Block.engineStep_of_lt (busy : b.busy = true) (more : b.pos < b.bits) : b.engineStep = .next b.bitStep := by
  simp [Block.engineStep, busy, more]

theorem Block.engineStep_of_eq (busy : b.busy = true) (all : b.pos = b.bits) : b.engineStep = .next b.finish := by
  simp [Block.engineStep, busy, all]

end EngineStep

theorem engineTurn_of_engineStep {s : State} {c : Block} (h : s.block.engineStep = .next c) :
    engineTurn s = .next { s with block := c } := by
  unfold engineTurn
  rw [h]

/-! ### Runs that come to a state -/

/-- Some number of steps from `s` ends in a state of which `Q` holds. -/
def Eventually (Q : State → Prop) (s : State) : Prop := ∃ k t, runs k s = .next t ∧ Q t

section Eventually
variable {P Q : State → Prop} {s t : State}

theorem Eventually.now (h : Q s) : Eventually Q s := ⟨0, s, rfl, h⟩

theorem Eventually.of_step (hstep : step s = .next t) (h : Eventually Q t) : Eventually Q s := by
  obtain ⟨k, u, hrun, hu⟩ := h
  exact ⟨k + 1, u, (runs_succ_next hstep).trans hrun, hu⟩

theorem Eventually.mono (h : Eventually P s) (hPQ : ∀ u, P u → Q u) : Eventually Q s := by
  obtain ⟨k, t, hrun, ht⟩ := h
  exact ⟨k, t, hrun, hPQ t ht⟩

theorem Eventually.trans (h : Eventually P s) (hPQ : ∀ u, P u → Eventually Q u) : Eventually Q s := by
  obtain ⟨j, u, hj, hu⟩ := h
  obtain ⟨k, v, hk, hv⟩ := hPQ u hu
  exact ⟨j + k, v, (runs_add hj).trans hk, hv⟩

end Eventually

/-! ### Each agent comes to its turn (log entry 4) -/

theorem hostWrite_turns {a : Nat} {v : Byte} {s t : State} (h : hostWrite a v s = .next t) : t.turns = s.turns := by
  obtain ⟨c, -, he⟩ := hostWrite_next a v s
  rw [he] at h
  cases h
  rfl

theorem hostWait_turns (s : State) : (hostWait s).turns = s.turns := by
  cases h : s.block.busy with
  | true => rw [hostWait_of_busy h]
  | false => rw [hostWait_of_idle h]

theorem hostAct_turns {op : HostOp} {s t : State} (h : hostAct op s = .next t) : t.turns = s.turns := by
  cases op with
  | read a => cases h; rfl
  | write a v => exact hostWrite_turns h
  | reset => cases h; rfl
  | wait => cases h; exact hostWait_turns s

/-- A turn is used up before it is taken: the agent itself leaves the order of turns alone. -/
theorem agentTurn_turns {g : Agent} {s t : State} (h : agentTurn g s = .next t) : t.turns = s.turns := by
  cases g with
  | host =>
    rcases hostTurn_cases h with ⟨-, rfl⟩ | ⟨op, rest, -, hact⟩
    · rfl
    · exact (hostAct_turns hact :)
  | engine =>
    obtain ⟨c, -, rfl⟩ := engineTurn_next h
    rfl

theorem step_of_turns_cons {s : State} {g : Agent} {rest : List Agent} (h : s.turns = g :: rest) :
    step s = agentTurn g { s with turns := rest } := by
  unfold step nextTurn
  rw [h]

/-- When the turns have run out, the step is that of the state with the next block of them written in it. -/
theorem step_of_turns_nil {s : State} (h : s.turns = []) :
    step s = step { s with turns := Config.turns s.tick ++ [.host, .engine], tick := s.tick + 1 } := by
  unfold step
  rw [nextTurn_of_turns_nil h]

/-- Wherever `I` holds, a turn of the agent `g` leads to `Q` and a turn of the other agent keeps `I`; whose turn it is does
not matter to `I`. -/
structure Leads (g : Agent) (I Q : State → Prop) : Prop where
  blind : ∀ s turns tick, I s → I { s with turns := turns, tick := tick }
  own : ∀ s, I s → ∃ t, agentTurn g s = .next t ∧ Q t
  other : ∀ s a, a ≠ g → I s → ∃ t, agentTurn a s = .next t ∧ I t

/-- One step from `s` and then some more end in `Q`. -/
def AfterStep (Q : State → Prop) (s : State) : Prop := ∃ t, step s = .next t ∧ Eventually Q t

theorem AfterStep.eventually {Q : State → Prop} {s : State} (h : AfterStep Q s) : Eventually Q s := by
  obtain ⟨t, hstep, ht⟩ := h
  exact .of_step hstep ht

section Fairness
variable {I Q : State → Prop} {g : Agent} {s : State}

/-- The turn at the head of `turns` is the agent's own, or it is the other's and `I` goes on to hold. -/
theorem Leads.of_turns_cons (h : Leads g I Q) {a : Agent} {rest : List Agent} (hturns : s.turns = a :: rest) (hs : I s)
    (hrest : a ≠ g → ∀ t, t.turns = rest → I t → AfterStep Q t) : AfterStep Q s := by
  have hs' : I { s with turns := rest } := h.blind s rest s.tick hs
  by_cases ha : a = g
  · obtain ⟨t, hturn, ht⟩ := h.own _ hs'
    exact ⟨t, by rw [step_of_turns_cons hturns, ha, hturn], .now ht⟩
  · obtain ⟨t, hturn, ht⟩ := h.other _ a ha hs'
    exact ⟨t, by rw [step_of_turns_cons hturns, hturn], (hrest ha t (agentTurn_turns hturn) ht).eventually⟩

theorem Leads.of_mem_turns (h : Leads g I Q) {turns : List Agent} (hg : g ∈ turns) (hturns : s.turns = turns) (hs : I s) :
    AfterStep Q s := by
  induction turns generalizing s with
  | nil => cases hg
  | cons a rest ih => exact h.of_turns_cons hturns hs fun hne _ => ih ((List.mem_cons.1 hg).resolve_left hne.symm)

/-- The next block of turns has one of each agent in it. -/
theorem Leads.of_turns_nil (h : Leads g I Q) (hturns : s.turns = []) (hs : I s) : AfterStep Q s := by
  have hg : g ∈ Config.turns s.tick ++ [.host, .engine] := by cases g <;> simp
  unfold AfterStep
  rw [step_of_turns_nil hturns]
  exact h.of_mem_turns hg rfl (h.blind s _ _ hs)

theorem Leads.afterStep (h : Leads g I Q) {turns : List Agent} (hturns : s.turns = turns) (hs : I s) : AfterStep Q s := by
  induction turns generalizing s with
  | nil => exact h.of_turns_nil hturns hs
  | cons a rest ih => exact h.of_turns_cons hturns hs fun _ _ => ih

/-- Neither agent is starved: whatever the order of turns, the agent's own turn comes. -/
theorem Leads.eventually (h : Leads g I Q) (hs : I s) : Eventually Q s := (h.afterStep rfl hs).eventually

end Fairness

/-! ### The host's lines at idle -/

theorem hostTurn_of_program_cons {s : State} {op : HostOp} {rest : List HostOp} (h : s.program = op :: rest) :
    hostTurn s = hostAct op { s with program := rest } := by
  unfold hostTurn
  rw [h]

/-- What a run shows, the order of its turns apart: its block, the lines the host has still to do, the bytes it has read. -/
structure Shows (b : Block) (program : List HostOp) (reads : List Host.Cell) (s : State) : Prop where
  block : s.block = b
  program : s.program = program
  reads : s.reads = reads

section Lines
variable {b : Block} {op : HostOp} {prog : List HostOp} {reads : List Host.Cell} {Q : State → Prop} {s : State}

/-- At idle the engine's turns change nothing, so the next line comes to be run in the same block. -/
theorem Shows.eventually_line (hs : Shows b (op :: prog) reads s) (idle : b.busy = false)
    (hact : ∀ u, Shows b prog reads u → ∃ t, hostAct op u = .next t ∧ Q t) : Eventually Q s := by
  have hleads : Leads .host (Shows b (op :: prog) reads) Q := by
    refine ⟨fun _ _ _ h => ⟨h.block, h.program, h.reads⟩, fun u hu => ?_, fun u a ha hu => ?_⟩
    · have hturn : agentTurn .host u = hostAct op { u with program := prog } := hostTurn_of_program_cons hu.program
      rw [hturn]
      exact hact _ ⟨hu.block, rfl, hu.reads⟩
    · cases a with
      | host => exact absurd rfl ha
      | engine =>
        have hidle : u.block.busy = false := hu.block ▸ idle
        exact ⟨u, engineTurn_of_engineStep (Block.engineStep_of_idle hidle), hu⟩
  exact hleads.eventually hs

/-- A WRITE that is known to leave the block `c`. -/
theorem Shows.eventually_write {c : Block} {a : Nat} {v : Byte} (hs : Shows b (.write a v :: prog) reads s)
    (idle : b.busy = false) (hwrite : ∀ u : State, u.block = b → hostWrite a v u = .next { u with block := c }) :
    Eventually (Shows c prog reads) s :=
  hs.eventually_line idle fun u hu => ⟨{ u with block := c }, hwrite u hu.block, rfl, hu.program, hu.reads⟩

theorem Shows.eventually_polyLine {p : Byte} (hs : Shows b (polyLine p ++ prog) reads s) (idle : b.busy = false) :
    Eventually (Shows { b with poly := p } prog reads) s :=
  hs.eventually_write idle fun u hu => by subst hu; exact hostWrite_poly_of_idle idle

theorem Shows.eventually_commandLine {i : Instr} (hs : Shows b (commandLine i ++ prog) reads s) (idle : b.busy = false) :
    Eventually (Shows (b.start i.opcode) prog reads) s :=
  hs.eventually_write idle fun u hu => by subst hu; exact hostWrite_command_of_idle idle (decode_encode i)

theorem Shows.eventually_writeBuf {i : Nat} {v : Byte} (hs : Shows b (.write (4 + i) v :: prog) reads s)
    (idle : b.busy = false) (h : i < b.length) : Eventually (Shows { b with buf := b.buf.set i v } prog reads) s :=
  hs.eventually_write idle fun u hu => by
    subst hu
    rw [hostWrite_buf_of_idle idle (by omega) (by omega), Nat.add_sub_cancel_left]

/-- LOAD in progress: the bytes `done` are written, those in `new` are still to come in the place of `old`. -/
theorem Shows.eventually_loadFrom {loaded : Buffer} {new done old : List Byte}
    (hs : Shows b (loadFrom (4 + done.length) new ++ prog) reads s) (idle : b.busy = false)
    (hloaded : loaded.bytes = done ++ new) (hbuf : b.buf.bytes = done ++ old) (hlen : old.length = new.length) :
    Eventually (Shows { b with buf := loaded } prog reads) s := by
  induction new generalizing done old b s with
  | nil =>
    obtain rfl := List.eq_nil_of_length_eq_zero hlen
    obtain rfl : b.buf = loaded := Buffer.bytes_injective (hbuf.trans hloaded.symm)
    exact .now hs
  | cons v new ih =>
    obtain ⟨o, old, rfl⟩ := List.exists_cons_of_length_eq_add_one hlen
    have hin : done.length < b.buf.length := by simp [← b.buf.length_bytes, hbuf]
    have hset : (b.buf.set done.length v).bytes = (done ++ [v]) ++ old := by simp [b.buf.bytes_set hin, hbuf]
    refine (hs.eventually_writeBuf idle hin).trans fun u hu => ?_
    refine ih (b := { b with buf := b.buf.set done.length v }) (done := done ++ [v]) ?_ idle (by simp [hloaded]) hset
      (by simpa using hlen)
    rw [List.length_append, ← Nat.add_assoc]
    exact hu

theorem Shows.eventually_loadLine {new : Buffer} (hs : Shows b (loadLine new ++ prog) reads s) (idle : b.busy = false)
    (hlen : new.length = b.length) : Eventually (Shows { b with buf := new } prog reads) s := by
  have hbytes : b.buf.bytes.length = new.bytes.length := by
    rw [Buffer.length_bytes, Buffer.length_bytes]
    exact hlen.symm
  exact Shows.eventually_loadFrom (done := []) hs idle rfl rfl hbytes

theorem Shows.eventually_read {a : Nat} (hs : Shows b (.read a :: prog) reads s) (idle : b.busy = false) (h : 1 ≤ a)
    (h' : a < b.length + 4) : Eventually (Shows b prog ((a, b.readByte a) :: reads)) s := by
  refine hs.eventually_line idle fun u hu => ⟨hostRead a u, rfl, ?_, hu.program, ?_⟩
  · rw [hostRead_block, hu.block, Block.afterRead_readable h h']
  · rw [hostRead_reads, hu.block, hu.reads]

/-- READs of a list of addresses; the last one done is the first in `reads`. -/
theorem Shows.eventually_reads {addrs : List Nat} (hs : Shows b (addrs.map .read ++ prog) reads s) (idle : b.busy = false)
    (h : ∀ a ∈ addrs, 1 ≤ a ∧ a < b.length + 4) :
    Eventually (Shows b prog ((addrs.map fun a => (a, b.readByte a)).reverse ++ reads)) s := by
  induction addrs generalizing reads s with
  | nil => exact .now hs
  | cons a addrs ih =>
    obtain ⟨⟨hlow, hhigh⟩, hrest⟩ := List.forall_mem_cons.1 h
    refine (hs.eventually_read idle hlow hhigh).trans fun u hu => ?_
    simpa using ih hu hrest

end Lines

/-! ### WAIT while an operation runs -/

/-- The host waits in the block `b`, whatever it has read. -/
structure Waits (b : Block) (prog : List HostOp) (s : State) : Prop where
  block : s.block = b
  program : s.program = .wait :: prog

section Wait
variable {b : Block} {prog : List HostOp} {s : State}

/-- While BUSY = 1 a host turn leaves the line WAIT to be done, so the engine comes to take its step. -/
theorem Waits.eventually_engineStep {c : Block} (hs : Waits b prog s) (busy : b.busy = true)
    (hstep : b.engineStep = .next c) : Eventually (Waits c prog) s := by
  have hleads : Leads .engine (Waits b prog) (Waits c prog) := by
    refine ⟨fun _ _ _ h => ⟨h.block, h.program⟩, fun u hu => ?_, fun u a ha hu => ?_⟩
    · exact ⟨_, engineTurn_of_engineStep (hu.block.symm ▸ hstep), rfl, hu.program⟩
    · cases a with
      | engine => exact absurd rfl ha
      | host =>
        have hturn : agentTurn .host u = .next (hostWait { u with program := prog }) :=
          hostTurn_of_program_cons hu.program
        rw [hturn, hostWait_of_busy (hu.block.symm ▸ busy)]
        exact ⟨_, rfl, hu.block, rfl⟩
  exact hleads.eventually hs

/-- The bits that are left, by induction on their number. -/
theorem Waits.eventually_consumed {left p : Nat} (hs : Waits (b.consumed p) prog s) (busy : b.busy = true)
    (hleft : p + left = b.bits) : Eventually (Waits (b.consumed b.bits) prog) s := by
  induction left generalizing p s with
  | zero => exact .now (hleft ▸ hs)
  | succ left ih =>
    have more : p < b.bits := by omega
    have hstep : (b.consumed p).engineStep = .next (b.consumed (p + 1)) := by
      rw [← b.bitStep_consumed]
      exact Block.engineStep_of_lt busy more
    have hbusy : (b.consumed p).busy = true := busy
    exact (hs.eventually_engineStep hbusy hstep).trans fun u hu => ih hu (by omega)

/-- The whole operation, from the state START left. -/
theorem Waits.eventually_completed {op : BitVec 2} (hs : Waits (b.start op) prog s) :
    Eventually (Waits (b.completed op) prog) s := by
  have hall : Eventually (Waits ((b.start op).consumed b.bits) prog) s :=
    Waits.eventually_consumed (p := 0) hs rfl (Nat.zero_add b.bits)
  exact hall.trans fun u hu => hu.eventually_engineStep rfl (Block.engineStep_of_eq rfl rfl)

/-- At idle WAIT reads STATUS once more and is done. -/
theorem Waits.eventually_idle (hs : Waits b prog s) (idle : b.busy = false) :
    Eventually (fun t => ∃ reads, Shows b prog reads t) s := by
  have hshows : Shows b (.wait :: prog) s.reads s := ⟨hs.block, hs.program, rfl⟩
  refine hshows.eventually_line idle fun u hu => ?_
  have hidle : u.block.busy = false := hu.block ▸ idle
  rw [hostAct, hostWait_of_idle hidle]
  exact ⟨_, rfl, _, hu.block, hu.program, rfl⟩

end Wait

/-! ### The pseudo-operations -/

/-- What STORE reads is the memory of the buffer, cell by cell. -/
theorem Block.cells_eq_map_readByte (b : Block) :
    (List.range' 4 b.length).map (fun a => (a, b.readByte a)) = b.buf.cells := by
  refine List.ext_getElem (by simp [Block.length]) fun i hi _ => ?_
  have hi' : i < b.length := by simpa using hi
  have hread : b.readByte (4 + i) = b.buf.get i := by
    rw [b.readByte_buf (by omega) (by omega), Nat.add_sub_cancel_left]
  have hget : b.buf.get i = b.buf.bytes[i]'(by rwa [b.buf.length_bytes]) := List.getD_eq_getElem _ _ _
  simp [Buffer.cells, hread, hget]

/-- The block after the operation `i` on the operands that a pseudo-operation loads. -/
def Block.calledOn (c : Block) (i : Instr) (b : Buffer) (p : Byte) : Block :=
  ({ c with poly := p, buf := b } : Block).completed i.opcode

/-- R87's three programs in one form, POLY, LOAD, the command, WAIT and some READs: they end in the completed operation on
the operands they loaded, having read its bytes. -/
theorem call_completes {s : State} {b : Buffer} {p : Byte} {i : Instr} {addrs : List Nat} {after : List HostOp}
    (idle : s.block.busy = false) (hlen : b.length = s.block.length) (haddrs : ∀ a ∈ addrs, 1 ≤ a ∧ a < b.length + 4)
    (hprog : s.program = polyLine p ++ (loadLine b ++ (commandLine i ++ .wait :: (addrs.map .read ++ after)))) :
    ∃ k t reads, runs k s = .next t ∧ Shows (s.block.calledOn i b p) after
      ((addrs.map fun a => (a, (s.block.calledOn i b p).readByte a)).reverse ++ reads) t := by
  suffices h : Eventually (fun t => ∃ reads, Shows (s.block.calledOn i b p) after
      ((addrs.map fun a => (a, (s.block.calledOn i b p).readByte a)).reverse ++ reads) t) s by
    obtain ⟨k, t, hrun, reads, ht⟩ := h
    exact ⟨k, t, reads, hrun, ht⟩
  have hs : Shows s.block _ s.reads s := ⟨rfl, hprog, rfl⟩
  refine (hs.eventually_polyLine idle).trans fun s1 h1 => ?_
  refine (h1.eventually_loadLine idle hlen).trans fun s2 h2 => ?_
  refine (h2.eventually_commandLine idle).trans fun s3 h3 => ?_
  have hwaits : Waits _ (addrs.map .read ++ after) s3 := ⟨h3.block, h3.program⟩
  refine hwaits.eventually_completed.trans fun s4 h4 => ?_
  refine (h4.eventually_idle rfl).trans fun s5 ⟨reads, h5⟩ => ?_
  refine (h5.eventually_reads rfl fun a ha => ?_).mono fun t ht => ⟨reads, ht⟩
  rw [Block.completed_length]
  exact haddrs a ha

/-- Settles O35: after the operation, RD 3 returns REM, the checksum of the loaded buffer. -/
theorem computeCallReturnsChecksum : Obligations.ComputeCallReturnsChecksum := by
  unfold Obligations.ComputeCallReturnsChecksum
  intro s b p after idle hlen hprog
  obtain ⟨k, t, reads, hrun, ht⟩ := call_completes (i := .compute) (addrs := [3]) (after := after) idle hlen (by simp)
    (by simpa [computeCall] using hprog)
  refine ⟨k, t, hrun, ht.program, congrArg Block.busy ht.block, ?_⟩
  rw [ht.reads]
  exact congrArg (fun v => some (3, v)) (Block.completed_rem _ _)

/-- Settles O36: after the operation, bit 2 of the byte that RD 1 returns is MATCH. -/
theorem verifyCallReturnsMatch : Obligations.VerifyCallReturnsMatch := by
  unfold Obligations.VerifyCallReturnsMatch
  intro s b p after idle hlen hprog
  obtain ⟨k, t, reads, hrun, ht⟩ := call_completes (i := .verify) (addrs := [1]) (after := after) idle hlen (by simp)
    (by simpa [verifyCall] using hprog)
  refine ⟨k, t, _, hrun, ht.program, congrArg Block.busy ht.block, congrArg List.head? ht.reads, ?_⟩
  obtain ⟨-, -, hmatched, -⟩ := Block.status_layout (s.block.calledOn .verify b p)
  exact hmatched.trans (Block.completed_verify_matched _)

/-- Settles O37: after the operation, STORE returns the memory of the completed buffer, in order of addresses. -/
theorem insertCallReturnsBuffer : Obligations.InsertCallReturnsBuffer := by
  unfold Obligations.InsertCallReturnsBuffer
  intro s b p after idle hlen hprog
  have haddrs : ∀ a ∈ List.range' 4 b.length, 1 ≤ a ∧ a < b.length + 4 := by
    intro a ha
    obtain ⟨hlow, hhigh⟩ := List.mem_range'_1.1 ha
    omega
  obtain ⟨k, t, reads, hrun, ht⟩ := call_completes (i := .insert) (after := after) idle hlen haddrs
    (by simpa [insertCall, storeLine] using hprog)
  have hbuf : (s.block.calledOn .insert b p).buf = b.insert p := Block.completed_insert_buf _
  have hN : (s.block.calledOn .insert b p).length = b.length := Block.completed_length _ _
  have hcells := (s.block.calledOn .insert b p).cells_eq_map_readByte
  rw [hN, hbuf] at hcells
  have hstore : (t.reads.take b.length).reverse = (b.insert p).cells := by
    have hcount : (b.insert p).cells.reverse.length = b.length := by simp [Buffer.insert]
    rw [ht.reads, hcells, ← hcount, List.take_left, List.reverse_reverse]
  refine ⟨k, t, hrun, ht.program, congrArg Block.busy ht.block, ?_, ?_⟩
  · rw [hstore, Buffer.cells_addresses]
    rfl
  · rw [hstore, Buffer.cells_bytes]

end Sys2Proof.Machine
end

section
/-! SUPPORT. Proofs of the family 40_divider.md: the bitwise laws of the divider (R101 to R103), division as remainders of
polynomials over GF(2) (R110), and the laws of compute, verify and insert (R111 to R120). -/

namespace Sys2Proof.Machine

/-! ### One bit -/

/-- The shift of R100: every bit moves up by one and the input bit comes in below. -/
theorem getLsbD_shiftIn (rem : Byte) (b : Bool) {i : Nat} (h : i < 8) :
    (rem <<< 1 ||| if b then 1#8 else 0#8).getLsbD i = if i = 0 then b else rem.getLsbD (i - 1) := by
  rcases i with _ | i <;> cases b <;> simp <;> omega

/-- R101 (a). -/
theorem shiftIn_eq_append (rem : Byte) (b : Bool) :
    (rem <<< 1 ||| if b then 1#8 else 0#8) = rem.extractLsb' 0 7 ++ BitVec.ofBool b := by
  refine BitVec.eq_of_getLsbD_eq fun i h => ?_
  rw [getLsbD_shiftIn rem b h, BitVec.getLsbD_append, BitVec.getLsbD_extractLsb', BitVec.getLsbD_ofBool]
  rcases i with _ | i
  · simp
  · simp [show i < 7 by omega]

/-- Bit 0 is free after the shift, so the OR of R100 is an XOR. -/
theorem shiftIn_eq_xor (rem : Byte) (b : Bool) :
    (rem <<< 1 ||| if b then 1#8 else 0#8) = (rem <<< 1) ^^^ if b then 1#8 else 0#8 := by
  refine BitVec.eq_of_getLsbD_eq fun i h => ?_
  rcases i with _ | i <;> cases b <;> simp

/-- R101 (b). -/
theorem bitstep_eq_xor (rem poly : Byte) (b : Bool) :
    bitstep rem poly b = (rem <<< 1) ^^^ (if b then 1#8 else 0#8) ^^^ (if rem.getLsbD 7 then poly else 0#8) := by
  unfold bitstep
  rw [shiftIn_eq_xor]
  cases rem.getLsbD 7
  · exact BitVec.xor_zero.symm
  · rfl

/-- R101 (c). -/
theorem bitstep_of_top_zero {rem : Byte} (h : rem.getLsbD 7 = false) (poly : Byte) (b : Bool) :
    bitstep rem poly b = rem.extractLsb' 0 7 ++ BitVec.ofBool b := by
  rw [← shiftIn_eq_append]
  exact if_neg (by rw [h]; exact Bool.false_ne_true)

/-- R101 (d). -/
theorem bitstep_zero_poly (rem : Byte) (b : Bool) : bitstep rem 0#8 b = rem.extractLsb' 0 7 ++ BitVec.ofBool b := by
  rw [← shiftIn_eq_append]
  simp [bitstep]

/-- R101 (e). -/
theorem bitstep_zero_rem (poly : Byte) (b : Bool) : bitstep 0#8 poly b = if b then 1#8 else 0#8 := by
  simp [bitstep]

/-- Settles O38: R101 (a) to (e), one lemma each. -/
theorem bitstepForms : Obligations.BitstepForms := by
  unfold Obligations.BitstepForms
  exact fun rem poly b => ⟨shiftIn_eq_append rem b, bitstep_eq_xor rem poly b, fun h => bitstep_of_top_zero h poly b,
    bitstep_zero_poly rem b, bitstep_zero_rem poly b⟩

/-- R100 bit by bit: the shifted bit, and that bit of `poly` if the top bit was 1. -/
theorem getLsbD_bitstep (rem poly : Byte) (b : Bool) {i : Nat} (h : i < 8) :
    (bitstep rem poly b).getLsbD i = ((if i = 0 then b else rem.getLsbD (i - 1)) ^^ (rem.getLsbD 7 && poly.getLsbD i)) := by
  rw [bitstep_eq_xor, ← shiftIn_eq_xor, BitVec.getLsbD_xor, getLsbD_shiftIn rem b h]
  cases rem.getLsbD 7 <;> simp

/-- R101 (f). -/
theorem bitstep_xor (r1 r2 poly : Byte) (b1 b2 : Bool) :
    bitstep (r1 ^^^ r2) poly (b1 ^^ b2) = bitstep r1 poly b1 ^^^ bitstep r2 poly b2 := by
  refine BitVec.eq_of_getLsbD_eq fun i h => ?_
  simp only [BitVec.getLsbD_xor, getLsbD_bitstep _ _ _ h, Bool.and_xor_distrib_right]
  split <;> simp only [Bool.xor_assoc, Bool.xor_left_comm]

theorem getLsbD_top_byte {i : Nat} (h : i < 7) : (0x80#8).getLsbD i = false := by interval_cases i <;> rfl

/-- A byte with its top bit set shifts to `poly` exactly when it is `poly` shifted down under a top bit. -/
theorem top_and_shiftLeft_eq_iff (d poly : Byte) :
    (d.getLsbD 7 = true ∧ d <<< 1 = poly) ↔ (poly.getLsbD 0 = false ∧ d = 0x80#8 ^^^ (poly >>> 1)) := by
  constructor
  · rintro ⟨htop, rfl⟩
    refine ⟨by simp, BitVec.eq_of_getLsbD_eq fun i h => ?_⟩
    obtain h7 | rfl : i < 7 ∨ i = 7 := by omega
    · rw [BitVec.getLsbD_xor, getLsbD_top_byte h7, BitVec.getLsbD_ushiftRight, BitVec.getLsbD_shiftLeft]
      simp [show 1 + i < 8 by omega]
    · rw [htop, BitVec.getLsbD_xor, BitVec.getLsbD_ushiftRight, BitVec.getLsbD_shiftLeft]
      rfl
  · rintro ⟨hlow, rfl⟩
    refine ⟨by simp, BitVec.eq_of_getLsbD_eq fun i h => ?_⟩
    rcases i with _ | i
    · simpa using hlow.symm
    · rw [BitVec.getLsbD_shiftLeft, BitVec.getLsbD_xor, Nat.add_sub_cancel, getLsbD_top_byte (Nat.lt_of_succ_lt_succ h),
        BitVec.getLsbD_ushiftRight, Nat.add_comm 1 i]
      simp [h]

/-- The kernel of `bitstep` with input bit 0: a remainder other than 0x00 is lost exactly when its shift is `poly`. -/
theorem bitstep_eq_zero_iff (d poly : Byte) :
    bitstep d poly false = 0#8 ↔ d = 0#8 ∨ (poly.getLsbD 0 = false ∧ d = 0x80#8 ^^^ (poly >>> 1)) := by
  rw [← top_and_shiftLeft_eq_iff, bitstep_eq_xor]
  cases htop : d.getLsbD 7
  · have hshift : d <<< 1 = 0#8 → d = 0#8 := by
      intro hz
      refine BitVec.eq_of_getLsbD_eq fun i h => ?_
      obtain h7 | rfl : i < 7 ∨ i = 7 := by omega
      · have hbit := congrArg (BitVec.getLsbD · (i + 1)) hz
        simpa [show i + 1 < 8 by omega, h] using hbit
      · exact htop
    simpa using ⟨hshift, by rintro rfl; rfl⟩
  · have hd : d ≠ 0#8 := by rintro rfl; cases htop
    simp [hd]

/-- Two remainders meet in one step exactly when their difference is in the kernel. -/
theorem bitstep_eq_iff (r r' poly : Byte) (b : Bool) :
    bitstep r poly b = bitstep r' poly b ↔ bitstep (r ^^^ r') poly false = 0#8 := by
  rw [← BitVec.xor_eq_zero_iff, ← bitstep_xor, Bool.xor_self]

/-- XOR moves to the other side of an equation. -/
theorem xor_eq_iff_eq_xor {x y z : Byte} : x ^^^ y = z ↔ y = x ^^^ z := by
  rw [← BitVec.xor_right_inj x, ← BitVec.xor_assoc, BitVec.xor_self, BitVec.zero_xor]

/-- R101 (g): the other preimage is the byte whose shift is `poly`. -/
theorem bitstep_eq_iff_of_low_zero {poly : Byte} (h : poly.getLsbD 0 = false) (r r' : Byte) (b : Bool) :
    bitstep r poly b = bitstep r' poly b ↔ (r' = r ∨ r' = r ^^^ (0x80#8 ^^^ (poly >>> 1))) := by
  rw [bitstep_eq_iff, bitstep_eq_zero_iff, BitVec.xor_eq_zero_iff]
  simp only [h, true_and]
  rw [xor_eq_iff_eq_xor, eq_comm (a := r)]

/-- R101 (g): `poly[0]` decides whether the bit shifted out can be told from the result. -/
theorem bitstep_bijective_iff (poly : Byte) (b : Bool) :
    Function.Bijective (fun rem => bitstep rem poly b) ↔ poly.getLsbD 0 = true := by
  rw [← Finite.injective_iff_bijective]
  constructor
  · intro hinj
    by_contra hlow
    have hd : 0x80#8 ^^^ (poly >>> 1) = 0#8 :=
      hinj ((bitstep_eq_iff_of_low_zero (by simpa using hlow) _ _ b).mpr (.inr (by simp)))
    exact absurd (congrArg (BitVec.getLsbD · 7) hd) (by simp)
  · intro hlow r r' he
    rcases (bitstep_eq_zero_iff _ poly).mp ((bitstep_eq_iff r r' poly b).mp he) with hz | ⟨hlow', _⟩
    · exact BitVec.xor_eq_zero_iff.mp hz
    · exact absurd (hlow.symm.trans hlow') (by decide)

/-- Settles O39: linearity bit by bit, and the kernel of the linear map. -/
theorem bitstepLinearAndBijective : Obligations.BitstepLinearAndBijective := by
  unfold Obligations.BitstepLinearAndBijective
  exact ⟨bitstep_xor, fun poly b =>
    ⟨bitstep_bijective_iff poly b, fun h r r' => bitstep_eq_iff_of_low_zero h r r' b⟩⟩

/-! ### One byte -/

/-- R102 written out. -/
theorem bytestep_eq (rem poly x : Byte) :
    bytestep rem poly x =
      bitstep (bitstep (bitstep (bitstep (bitstep (bitstep (bitstep (bitstep rem poly (x.getLsbD 7)) poly (x.getLsbD 6))
        poly (x.getLsbD 5)) poly (x.getLsbD 4)) poly (x.getLsbD 3)) poly (x.getLsbD 2)) poly (x.getLsbD 1)) poly
        (x.getLsbD 0) := rfl

/-- R102 inherits R101 (f). -/
theorem bytestep_xor (r1 r2 poly x1 x2 : Byte) :
    bytestep (r1 ^^^ r2) poly (x1 ^^^ x2) = bytestep r1 poly x1 ^^^ bytestep r2 poly x2 := by
  simp only [bytestep_eq, BitVec.getLsbD_xor, bitstep_xor]

/-- A register that holds the bits of `x` above bit k takes in bit k, and no XOR with `poly` can happen. -/
theorem bitstep_ushiftRight (poly x : Byte) (k : Nat) : bitstep (x >>> (k + 1)) poly (x.getLsbD k) = x >>> k := by
  refine BitVec.eq_of_getLsbD_eq fun i h => ?_
  rw [getLsbD_bitstep _ _ _ h]
  simp only [BitVec.getLsbD_ushiftRight, BitVec.getLsbD_of_ge x (k + 1 + 7) (by omega), Bool.false_and, Bool.xor_false]
  split
  · simp [*]
  · congr 1
    omega

/-- R102: eight shifts pass before anything reaches bit 7. -/
theorem bytestep_zero_rem (poly x : Byte) : bytestep 0#8 poly x = x := by
  have h : (0#8 : Byte) = x >>> (7 + 1) := (BitVec.ushiftRight_eq_zero (by decide)).symm
  rw [bytestep_eq, h]
  simp only [bitstep_ushiftRight]
  exact BitVec.ushiftRight_zero x

/-- R102: the last byte passes through. -/
theorem bytestep_eq_xor (rem poly x : Byte) : bytestep rem poly x = bytestep rem poly 0#8 ^^^ x := by
  calc bytestep rem poly x = bytestep (rem ^^^ 0#8) poly (0#8 ^^^ x) := by simp
    _ = bytestep rem poly 0#8 ^^^ bytestep 0#8 poly x := bytestep_xor rem 0#8 poly 0#8 x
    _ = bytestep rem poly 0#8 ^^^ x := by rw [bytestep_zero_rem]

/-- R102: with no XOR at all the eight shifts lose the old remainder. -/
theorem bytestep_zero_poly (rem x : Byte) : bytestep rem 0#8 x = x := by
  have hshift (r : Byte) : bitstep r 0#8 false = r <<< 1 := by simp [bitstep]
  have hzero : bytestep rem 0#8 0#8 = 0#8 := by
    simp only [bytestep_eq, BitVec.getLsbD_zero, hshift, ← BitVec.shiftLeft_add]
    exact BitVec.shiftLeft_eq_zero (by decide)
  rw [bytestep_eq_xor, hzero, BitVec.zero_xor]

/-- Settles O40: the eight bits in order, and the corner cases. -/
theorem bytestepLaws : Obligations.BytestepLaws := by
  unfold Obligations.BytestepLaws
  exact fun rem poly x =>
    ⟨bytestep_eq rem poly x, bytestep_zero_rem poly x, bytestep_zero_poly rem x, bytestep_eq_xor rem poly x⟩

/-! ### A sequence of bytes -/

@[simp] theorem divide_nil (rem poly : Byte) : divide rem poly [] = rem := rfl

@[simp] theorem divide_cons (rem poly x : Byte) (bytes : List Byte) :
    divide rem poly (x :: bytes) = divide (bytestep rem poly x) poly bytes := rfl

/-- R103: division composes. -/
theorem divide_append (rem poly : Byte) (a b : List Byte) : divide rem poly (a ++ b) = divide (divide rem poly a) poly b :=
  List.foldl_append

/-- R104: the checksum of a buffer is the zero-seeded division of its bits. -/
theorem Buffer.compute_eq_divideBits (b : Buffer) (poly : Byte) :
    b.compute poly = divideBits 0#8 poly b.bytes (8 * b.length) := by
  rw [← b.length_bytes, divideBits_all]
  rfl

/-- Settles O41: the recursions are the definitions', the agreement of bits and bytes is `divideBits_all`. -/
theorem divideLaws : Obligations.DivideLaws := by
  unfold Obligations.DivideLaws
  exact ⟨divide_nil, divide_cons, fun _ _ _ => rfl, fun _ _ _ _ => rfl, divideBits_all, divide_append,
    Buffer.compute_eq_divideBits⟩

/-- R111: division is linear over XOR. -/
theorem divide_xorBytes (r1 r2 poly : Byte) (a b : List Byte) (h : a.length = b.length) :
    divide (r1 ^^^ r2) poly (xorBytes a b) = divide r1 poly a ^^^ divide r2 poly b := by
  induction a generalizing b r1 r2 with
  | nil =>
    rw [List.length_eq_zero_iff.mp h.symm]
    rfl
  | cons x xs ih =>
    cases b with
    | nil => cases h
    | cons y ys =>
      have hxor : xorBytes (x :: xs) (y :: ys) = (x ^^^ y) :: xorBytes xs ys := rfl
      rw [hxor, divide_cons, bytestep_xor, ih _ _ _ (Nat.succ.inj h)]
      rfl

/-- R111 for buffers. -/
theorem Buffer.compute_xorBytes {a b c : Buffer} (hlen : a.length = b.length) (hc : c.bytes = xorBytes a.bytes b.bytes)
    (poly : Byte) : c.compute poly = a.compute poly ^^^ b.compute poly := by
  have h := divide_xorBytes 0#8 0#8 poly a.bytes b.bytes (by simpa using hlen)
  rw [BitVec.xor_self, ← hc] at h
  exact h

/-- R112 (c): a zero register stays zero over zero bytes. -/
theorem divide_replicate_zero (poly : Byte) (n : Nat) : divide 0#8 poly (List.replicate n 0#8) = 0#8 := by
  induction n with
  | zero => rfl
  | succ n ih => rw [List.replicate_succ, divide_cons, bytestep_zero_rem, ih]

/-- R111: the all-zero buffer has checksum 0x00. -/
theorem Buffer.compute_zeros (n : Nat) (poly : Byte) :
    ({ payload := List.replicate n 0#8, slot := 0#8 } : Buffer).compute poly = 0#8 := by
  have h : ({ payload := List.replicate n 0#8, slot := 0#8 } : Buffer).bytes = List.replicate (n + 1) 0#8 :=
    List.replicate_succ'.symm
  rw [Buffer.compute, h, divide_replicate_zero]

/-- Settles O43, by induction on the sequences: each byte step is linear. -/
theorem divideLinear : Obligations.DivideLinear := by
  unfold Obligations.DivideLinear
  exact ⟨divide_xorBytes, fun _ _ _ poly hlen hc => Buffer.compute_xorBytes hlen hc poly, Buffer.compute_zeros⟩

/-! ### compute, verify and insert -/

/-- R105. -/
theorem Buffer.verify_iff (b : Buffer) (poly : Byte) : b.verify poly = true ↔ b.compute poly = 0#8 := decide_eq_true_iff

/-- R104: the CRC slot is consumed last. -/
theorem Buffer.compute_eq_bytestep (b : Buffer) (poly : Byte) :
    b.compute poly = bytestep (divide 0#8 poly b.payload) poly b.slot := divide_append 0#8 poly b.payload [b.slot]

theorem computeZeroSlot_eq_bytestep (a : List Byte) (poly : Byte) :
    computeZeroSlot a poly = bytestep (divide 0#8 poly a) poly 0#8 := divide_append 0#8 poly a [0#8]

/-- R113, the trailing-byte law. -/
theorem Buffer.compute_eq_xor_slot (b : Buffer) (poly : Byte) : b.compute poly = computeZeroSlot b.payload poly ^^^ b.slot := by
  rw [b.compute_eq_bytestep, bytestep_eq_xor, computeZeroSlot_eq_bytestep]

/-- R113: VERIFY compares the last byte with the checksum of the rest. -/
theorem Buffer.verify_iff_slot (b : Buffer) (poly : Byte) : b.verify poly = true ↔ b.slot = computeZeroSlot b.payload poly := by
  rw [b.verify_iff, b.compute_eq_xor_slot, BitVec.xor_eq_zero_iff, eq_comm]

/-- R114, the round trip: the placeholder comes back as the remainder. -/
theorem Buffer.compute_insert (b : Buffer) (poly : Byte) : (b.insert poly).compute poly = b.slot := by
  rw [Buffer.compute_eq_xor_slot, xor_eq_iff_eq_xor]
  exact b.compute_eq_xor_slot poly

/-- Settles O46, from the trailing-byte law. -/
theorem insertRoundTrip : Obligations.InsertRoundTrip := by
  unfold Obligations.InsertRoundTrip
  intro b poly
  rw [Buffer.verify_iff, b.compute_insert]
  exact ⟨rfl, Iff.rfl⟩

/-- R115. -/
theorem Buffer.insert_insert (b : Buffer) (poly : Byte) : (b.insert poly).insert poly = b :=
  congrArg (fun v => ({ b with slot := v } : Buffer)) (b.compute_insert poly)

/-- Settles O47, from the round trip; on [12 00] under 0xD5 inserting again undoes it. -/
theorem insertInvolution : Obligations.InsertInvolution := by
  unfold Obligations.InsertInvolution
  refine ⟨fun b poly => ⟨b.insert_insert poly, (b.verify_iff poly).mp⟩, ⟨[0x12#8], 0#8⟩, 0xD5#8, ?_⟩
  rw [Buffer.insert_insert]
  decide +kernel

/-- R112 (b): under 0x00 only the last byte counts. -/
theorem Buffer.compute_zero_poly (b : Buffer) : b.compute 0#8 = b.slot := by
  rw [b.compute_eq_bytestep, bytestep_zero_poly]

/-- R112 (a): the only byte of a buffer is its remainder. -/
theorem Buffer.compute_of_payload_nil (x poly : Byte) : ({ payload := [], slot := x } : Buffer).compute poly = x :=
  bytestep_zero_rem poly x

/-- A buffer whose checksum is already in its CRC slot is left as it is. -/
theorem Buffer.insert_eq_self {b : Buffer} {poly : Byte} (h : b.compute poly = b.slot) : b.insert poly = b :=
  congrArg (fun v => ({ b with slot := v } : Buffer)) h

/-- R112 (c): the register starts at zero, so leading zero bits leave it there. -/
theorem divideBits_of_zero_bits (poly : Byte) (bytes : List Byte) (q : Nat) (h : ∀ p < q, streamBit bytes p = false) :
    divideBits 0#8 poly bytes q = 0#8 := by
  induction q with
  | zero => rfl
  | succ q ih =>
    rw [divideBits, ih fun p hp => h p (by omega), h q (Nat.lt_succ_self q), bitstep_zero_rem]
    rfl

/-- Settles O44, one lemma per case of R112. -/
theorem degenerateBuffers : Obligations.DegenerateBuffers := by
  unfold Obligations.DegenerateBuffers
  refine ⟨fun x poly => ?_, fun b => ?_, fun a x poly => ?_, divideBits_of_zero_bits⟩
  · have h := Buffer.compute_of_payload_nil x poly
    exact ⟨h, by rw [Buffer.verify_iff, h], Buffer.insert_eq_self h⟩
  · have h := b.compute_zero_poly
    exact ⟨h, Buffer.insert_eq_self h, by rw [Buffer.verify_iff, h]⟩
  · rw [Buffer.compute_eq_bytestep, divide_cons, bytestep_zero_rem, Buffer.compute_eq_bytestep]

/-- Settles O50: the scenario's bytes evaluated, and the checksum of the all-zero buffer. -/
theorem otherPolynomial : Obligations.OtherPolynomial := by
  unfold Obligations.OtherPolynomial
  have hD5 : ({ payload := [0x12#8, 0x34#8, 0x56#8], slot := 0xAD#8 } : Buffer).compute 0xD5#8 = 0#8 := by decide +kernel
  have hD6 : ({ payload := [0x12#8, 0x34#8, 0x56#8], slot := 0xAD#8 } : Buffer).compute 0xD6#8 = 0x27#8 := by decide +kernel
  refine ⟨(Buffer.verify_iff _ _).mpr hD5, hD6, ?_, fun n poly => (Buffer.verify_iff _ _).mpr (Buffer.compute_zeros n poly)⟩
  rw [← Bool.not_eq_true, Buffer.verify_iff, hD6]
  decide

end Sys2Proof.Machine

namespace Sys2Proof

open Polynomial Machine

/-! ### Bits and bytes as polynomials over GF(2) -/

@[simp] theorem bitPoly_false : bitPoly false = 0 := rfl
@[simp] theorem bitPoly_true : bitPoly true = 1 := rfl

theorem bitPoly_xor (a b : Bool) : bitPoly (a ^^ b) = bitPoly a + bitPoly b := by
  cases a <;> cases b <;> simp [CharTwo.add_self_eq_zero]

theorem bytePoly_xor (r s : Byte) : bytePoly (r ^^^ s) = bytePoly r + bytePoly s := by
  simp only [bytePoly, BitVec.getLsbD_xor, bitPoly_xor, add_mul, Finset.sum_add_distrib]

@[simp] theorem bytePoly_zero : bytePoly 0#8 = 0 := by simp [bytePoly]

theorem coeff_bytePoly (r : Byte) (i : Nat) : (bytePoly r).coeff i = if r.getLsbD i then 1 else 0 := by
  have hterm (j : Nat) : (bitPoly (r.getLsbD j) * X ^ j).coeff i = if i = j then (if r.getLsbD j then 1 else 0) else 0 := by
    cases r.getLsbD j <;> simp [coeff_X_pow]
  simp only [bytePoly, finsetSum_coeff, hterm, Finset.sum_ite_eq, Finset.mem_range]
  split
  · rfl
  · rw [BitVec.getLsbD_of_ge r i (by omega)]
    rfl

/-- A byte can be read back from its polynomial. -/
theorem bytePoly_injective : Function.Injective bytePoly := by
  intro r s h
  refine BitVec.eq_of_getLsbD_eq fun i _ => ?_
  have hi := congrArg (coeff · i) h
  simp only [coeff_bytePoly] at hi
  cases hr : r.getLsbD i <;> cases hs : s.getLsbD i <;> simp [hr, hs] at hi ⊢

theorem bytePoly_eq_zero_iff (r : Byte) : bytePoly r = 0 ↔ r = 0#8 := by
  rw [← bytePoly_zero, bytePoly_injective.eq_iff]

theorem degree_bytePoly_lt (r : Byte) : (bytePoly r).degree < 8 := by
  refine (degree_lt_iff_coeff_zero _ 8).mpr fun i hi => ?_
  rw [coeff_bytePoly, BitVec.getLsbD_of_ge r i hi]
  rfl

theorem bytePoly_bit (b : Bool) : bytePoly (if b then 1#8 else 0#8) = bitPoly b := by
  cases b
  · exact bytePoly_zero
  · simp [bytePoly, Finset.sum_range_succ]

/-- Multiplication by x is the shift, and the bit shifted out has weight x^8. -/
theorem bytePoly_mul_X (r : Byte) : bytePoly r * X = bytePoly (r <<< 1) + bitPoly (r.getLsbD 7) * X ^ 8 := by
  have hshift : bytePoly (r <<< 1) = (∑ i ∈ Finset.range 7, bitPoly (r.getLsbD i) * X ^ i) * X := by
    rw [bytePoly, Finset.sum_range_succ', Finset.sum_mul]
    have hlow : (r <<< 1).getLsbD 0 = false := by simp
    rw [hlow, bitPoly_false, zero_mul, add_zero]
    refine Finset.sum_congr rfl fun i hi => ?_
    have hi' : i + 1 < 8 := Nat.succ_lt_succ (Finset.mem_range.mp hi)
    rw [BitVec.getLsbD_shiftLeft, pow_succ, ← mul_assoc]
    simp [hi']
  rw [hshift, bytePoly, Finset.sum_range_succ, add_mul, mul_assoc (bitPoly _), ← pow_succ]

/-! ### The divisor -/

theorem generator_monic (poly : Byte) : (generator poly).Monic := monic_X_pow_add (degree_bytePoly_lt poly)

theorem degree_generator (poly : Byte) : (generator poly).degree = 8 := by
  rw [generator, degree_add_eq_left_of_degree_lt] <;> rw [degree_X_pow]
  · rfl
  · exact degree_bytePoly_lt poly

theorem bytePoly_mod_generator (r poly : Byte) : bytePoly r %ₘ generator poly = bytePoly r := by
  rw [modByMonic_eq_self_iff (generator_monic poly), degree_generator]
  exact degree_bytePoly_lt r

/-- A product may be reduced in one factor first. -/
theorem mod_mul_add_mod {g : (ZMod 2)[X]} (hg : g.Monic) (f h c : (ZMod 2)[X]) :
    (f %ₘ g * h + c) %ₘ g = (f * h + c) %ₘ g := by
  refine modByMonic_eq_of_dvd_sub hg ?_
  have hsub : f %ₘ g * h + c - (f * h + c) = (f %ₘ g - f) * h := by ring
  rw [hsub]
  exact (dvd_modByMonic_sub f g).mul_right h

/-! ### Division is the remainder modulo G(x) -/

/-- R110: x^8 is congruent to poly(x), so the XOR of R100 takes the bit shifted out away. -/
theorem bytePoly_bitstep (r poly : Byte) (b : Bool) :
    bytePoly (bitstep r poly b) = (bytePoly r * X + bitPoly b) %ₘ generator poly := by
  have hpoly : bytePoly (if r.getLsbD 7 then poly else 0#8) = bitPoly (r.getLsbD 7) * bytePoly poly := by
    cases r.getLsbD 7 <;> simp
  have hsum : bytePoly (bitstep r poly b) + generator poly * bitPoly (r.getLsbD 7) = bytePoly r * X + bitPoly b := by
    rw [bitstep_eq_xor, bytePoly_xor, bytePoly_xor, bytePoly_bit, hpoly, bytePoly_mul_X, generator]
    linear_combination CharTwo.add_self_eq_zero (bitPoly (r.getLsbD 7) * bytePoly poly)
  have hdeg : (bytePoly (bitstep r poly b)).degree < (generator poly).degree := by
    rw [degree_generator]
    exact degree_bytePoly_lt _
  exact (div_modByMonic_unique (bitPoly (r.getLsbD 7)) (bytePoly (bitstep r poly b)) (generator_monic poly) ⟨hsum, hdeg⟩).2.symm

/-- The first `p` bits of a stream as a polynomial: `streamPoly` is the case of all its bits. -/
noncomputable def leadingPoly (bytes : List Byte) (p : Nat) : (ZMod 2)[X] :=
  ∑ q ∈ Finset.range p, bitPoly (streamBit bytes q) * X ^ (p - 1 - q)

theorem streamPoly_eq_leadingPoly (bytes : List Byte) : streamPoly bytes = leadingPoly bytes (8 * bytes.length) := rfl

/-- One more bit moves the others up by one degree. -/
theorem leadingPoly_succ (bytes : List Byte) (p : Nat) :
    leadingPoly bytes (p + 1) = leadingPoly bytes p * X + bitPoly (streamBit bytes p) := by
  have hlast : p + 1 - 1 - p = 0 := by omega
  rw [leadingPoly, Finset.sum_range_succ, leadingPoly, Finset.sum_mul, hlast, pow_zero, mul_one]
  refine congrArg (· + bitPoly (streamBit bytes p)) (Finset.sum_congr rfl fun q hq => ?_)
  have hq' := Finset.mem_range.mp hq
  rw [mul_assoc, ← pow_succ, show p + 1 - 1 - q = p - 1 - q + 1 by omega]

/-- R110 for any number of bits, by induction over the bits. -/
theorem bytePoly_divideBits (r poly : Byte) (bytes : List Byte) (p : Nat) :
    bytePoly (divideBits r poly bytes p) = (bytePoly r * X ^ p + leadingPoly bytes p) %ₘ generator poly := by
  induction p with
  | zero =>
    rw [divideBits, leadingPoly, Finset.sum_range_zero, pow_zero, mul_one, add_zero, bytePoly_mod_generator]
  | succ p ih =>
    rw [divideBits, bytePoly_bitstep, ih, mod_mul_add_mod (generator_monic poly), leadingPoly_succ, add_mul, mul_assoc,
      ← pow_succ, add_assoc]

/-- R110 for a sequence of bytes. -/
theorem bytePoly_divide (r poly : Byte) (bytes : List Byte) :
    bytePoly (divide r poly bytes) = (bytePoly r * X ^ (8 * bytes.length) + streamPoly bytes) %ₘ generator poly := by
  rw [← divideBits_all, bytePoly_divideBits, streamPoly_eq_leadingPoly]

theorem bytePoly_divide_zero (poly : Byte) (bytes : List Byte) :
    bytePoly (divide 0#8 poly bytes) = streamPoly bytes %ₘ generator poly := by
  rw [bytePoly_divide, bytePoly_zero, zero_mul, zero_add]

/-- R110 for a buffer. -/
theorem bytePoly_compute (b : Buffer) (poly : Byte) : bytePoly (b.compute poly) = streamPoly b.bytes %ₘ generator poly :=
  bytePoly_divide_zero poly b.bytes

/-- Settles O42: one bit is a division step, and the rest is an induction over the bits. -/
theorem polynomialRemainder : Obligations.PolynomialRemainder := by
  unfold Obligations.PolynomialRemainder
  exact ⟨bytePoly_bitstep, bytePoly_divide, bytePoly_compute⟩

/-- R105 as divisibility by G(x). -/
theorem verify_iff_mod_eq_zero (b : Buffer) (poly : Byte) : b.verify poly = true ↔ streamPoly b.bytes %ₘ generator poly = 0 := by
  rw [b.verify_iff, ← bytePoly_compute, bytePoly_eq_zero_iff]

/-! ### The last byte -/

theorem streamPoly_zero_byte : streamPoly [0#8] = 0 := by
  refine Finset.sum_eq_zero fun p hp => ?_
  have hbit : ∀ p < 8, streamBit [0#8] p = false := by decide
  rw [hbit p (Finset.mem_range.mp hp), bitPoly_false, zero_mul]

/-- R113: the zero byte multiplies the payload by x^8. -/
theorem bytePoly_computeZeroSlot (a : List Byte) (poly : Byte) :
    bytePoly (computeZeroSlot a poly) = (streamPoly a * X ^ 8) %ₘ generator poly := by
  rw [computeZeroSlot, divide_append, bytePoly_divide, bytePoly_divide_zero, streamPoly_zero_byte,
    mod_mul_add_mod (generator_monic poly), add_zero]
  rfl

/-- Settles O45: the last byte passes through the division, and the zero byte in its place multiplies by x^8. -/
theorem trailingByteLaw : Obligations.TrailingByteLaw := by
  unfold Obligations.TrailingByteLaw
  exact fun a x poly => ⟨Buffer.compute_eq_xor_slot ⟨a, x⟩ poly, Buffer.verify_iff_slot ⟨a, x⟩ poly,
    bytePoly_computeZeroSlot a poly⟩

/-- R118: the payload's own checksum in the CRC slot. -/
theorem verify_own_checksum_iff (a : List Byte) (poly : Byte) :
    ({ payload := a, slot := divide 0#8 poly a } : Buffer).verify poly = true ↔
      (streamPoly a * (X ^ 8 + 1)) %ₘ generator poly = 0 := by
  rw [Buffer.verify_iff_slot, ← bytePoly_injective.eq_iff, bytePoly_divide_zero, bytePoly_computeZeroSlot, mul_add, mul_one,
    add_modByMonic, CharTwo.add_eq_zero, eq_comm]

/-- Settles O48: the trailing-byte law for INSERT, and the payload's own checksum as a multiple of G(x). -/
theorem placeholderDependence : Obligations.PlaceholderDependence := by
  unfold Obligations.PlaceholderDependence
  refine ⟨fun a x x' poly => ?_, fun a poly _ => verify_own_checksum_iff a poly⟩
  have hslot (y : Byte) : (({ payload := a, slot := y } : Buffer).insert poly).slot = computeZeroSlot a poly ^^^ y :=
    Buffer.compute_eq_xor_slot ⟨a, y⟩ poly
  refine ⟨hslot x, ?_⟩
  rw [hslot, hslot, xor_eq_iff_eq_xor, BitVec.xor_assoc, ← BitVec.xor_assoc x x, BitVec.xor_self, BitVec.zero_xor]

/-! ### Errors in a codeword -/

/-- G(x) divides a power of x only when G(x) = x^8. -/
theorem X_pow_mod_generator_eq_zero_iff (poly : Byte) (k : Nat) :
    (X ^ k : (ZMod 2)[X]) %ₘ generator poly = 0 ↔ poly = 0#8 ∧ 8 ≤ k := by
  rw [modByMonic_eq_zero_iff_dvd (generator_monic poly)]
  constructor
  · intro hdvd
    obtain ⟨i, hik, hassoc⟩ := (dvd_prime_pow prime_X k).mp hdvd
    have hpow : generator poly = X ^ i := eq_of_monic_of_associated (generator_monic poly) (monic_X_pow i) hassoc
    have hi : i = 8 := by
      have hdeg := degree_generator poly
      rw [hpow, degree_X_pow] at hdeg
      exact_mod_cast hdeg
    subst hi
    exact ⟨(bytePoly_eq_zero_iff poly).mp (add_eq_left.mp hpow), hik⟩
  · rintro ⟨rfl, hk⟩
    rw [generator, bytePoly_zero, add_zero]
    exact pow_dvd_pow X hk

theorem getLsbD_one_shiftLeft {k i : Nat} (hi : i < 8) : (1#8 <<< k).getLsbD i = decide (i = k) := by
  rw [BitVec.getLsbD_shiftLeft, BitVec.getLsbD_one]
  simp only [hi, decide_true, Bool.true_and, ← decide_not, ← Bool.decide_and, Nat.zero_lt_succ]
  exact decide_eq_decide.mpr (by omega)

/-- A flip changes the bit at its stream position and no other. -/
theorem streamBit_flip (b : Buffer) (p : Nat) {q : Nat} (hq : q < 8 * b.length) :
    streamBit (b.flip q).bytes p = (streamBit b.bytes p ^^ decide (p = q)) := by
  have hstream (c : Buffer) : streamBit c.bytes p = (c.get (p / 8)).getLsbD (7 - p % 8) := rfl
  have hbyte : q / 8 < b.length := by omega
  rw [hstream, hstream, Buffer.flip]
  by_cases hpq : p / 8 = q / 8
  · rw [hpq, b.get_set_self hbyte, BitVec.getLsbD_xor, getLsbD_one_shiftLeft (by omega)]
    exact congrArg _ (decide_eq_decide.mpr (by omega))
  · have hne : p ≠ q := fun h => hpq (congrArg (· / 8) h)
    rw [b.get_set_other hbyte hpq, decide_eq_false hne, Bool.xor_false]

/-- A flip adds the weight of its bit to the stream polynomial. -/
theorem streamPoly_flip (b : Buffer) {q : Nat} (hq : q < 8 * b.length) :
    streamPoly (b.flip q).bytes = streamPoly b.bytes + X ^ (8 * b.length - 1 - q) := by
  have hflipped : ∑ p ∈ Finset.range (8 * b.length), bitPoly (decide (p = q)) * X ^ (8 * b.length - 1 - p) =
      X ^ (8 * b.length - 1 - q) := by
    rw [Finset.sum_eq_single_of_mem q (Finset.mem_range.mpr hq) fun p _ hpq => by simp [hpq]]
    simp
  have hlen : (b.flip q).length = b.length := b.length_set _ _
  rw [streamPoly, streamPoly, Buffer.length_bytes, Buffer.length_bytes, hlen, ← hflipped, ← Finset.sum_add_distrib]
  refine Finset.sum_congr rfl fun p _ => ?_
  rw [streamBit_flip b p hq, bitPoly_xor, add_mul]

/-- R119: the remainder of a codeword with one bit flipped. -/
theorem bytePoly_compute_flip {b : Buffer} {poly : Byte} {q : Nat} (hb : b.verify poly = true) (hq : q < 8 * b.length) :
    bytePoly ((b.flip q).compute poly) = X ^ (8 * b.length - 1 - q) %ₘ generator poly := by
  rw [bytePoly_compute, streamPoly_flip b hq, add_modByMonic, (verify_iff_mod_eq_zero b poly).mp hb, zero_add]

/-- R119: a flip goes unnoticed only under 0x00 and outside the last byte. -/
theorem verify_flip_iff {b : Buffer} {poly : Byte} {q : Nat} (hb : b.verify poly = true) (hq : q < 8 * b.length) :
    (b.flip q).verify poly = true ↔ poly = 0#8 ∧ 8 ≤ 8 * b.length - 1 - q := by
  rw [Buffer.verify_iff, ← bytePoly_eq_zero_iff, bytePoly_compute_flip hb hq, X_pow_mod_generator_eq_zero_iff]

/-- R119: adding a multiple of G(x) to a codeword gives a codeword. -/
theorem verify_xor_multiple {b e c : Buffer} {poly : Byte} (hb : b.verify poly = true) (hlen : b.length = e.length)
    (he : streamPoly e.bytes %ₘ generator poly = 0) (hc : c.bytes = xorBytes b.bytes e.bytes) : c.verify poly = true := by
  have he' := (verify_iff_mod_eq_zero e poly).mpr he
  rw [Buffer.verify_iff] at hb he' ⊢
  rw [Buffer.compute_xorBytes hlen hc, hb, he', BitVec.xor_self]

/-- Settles O49: a flip adds x^k to a multiple of G(x), and G(x) divides x^k only when it is x^8 itself. -/
theorem singleBitFlips : Obligations.SingleBitFlips := by
  unfold Obligations.SingleBitFlips
  refine ⟨fun b poly q hb hq => ⟨bytePoly_compute_flip hb hq, fun hpoly => ?_, fun hpoly => ?_⟩,
    fun b e c poly => verify_xor_multiple⟩
  · rw [← Bool.not_eq_true, verify_flip_iff hb hq]
    exact fun ⟨h, _⟩ => hpoly h
  · rw [← Bool.not_eq_true, verify_flip_iff hb hq, and_iff_right hpoly, Nat.not_le]

end Sys2Proof
end

section
/-! SUPPORT. Proofs of the family 41_operations.md: START (R141), the engine's steps (R140, R142, R143), the three operations
run to their end (R145 to R148), and what RESET, ERR and the host's other accesses do to them (R149, R151, R152). -/

namespace Sys2Proof.Machine

/-! ### The command's own step -/

section Exec
variable {s : State}

theorem exec_of_idle (idle : s.block.busy = false) (i : Instr) :
    exec i s = .next { s with block := s.block.start i.opcode } := by
  rw [exec_next, State.command, Block.command_of_idle idle]

theorem exec_of_busy (busy : s.block.busy = true) (i : Instr) :
    exec i s = .next { s with block := s.block.raise .busyAccess } := by
  rw [exec_next, State.command, Block.command_of_busy busy]

end Exec

/-- Settles O5: a command at idle is START of its operation code. -/
theorem legalCommandStarts : Obligations.LegalCommandStarts := by
  unfold Obligations.LegalCommandStarts
  intro s idle
  exact ⟨exec_of_idle idle .compute, exec_of_idle idle .verify, exec_of_idle idle .insert⟩

/-- Neither START nor a BusyAccess touches BUF or POLY. -/
theorem Block.readByte_command (b : Block) (op : BitVec 2) {a : Nat} (hstatus : a ≠ 1) (hcrc : a ≠ 3) :
    (b.command op).readByte a = b.readByte a := by
  have hoperands : (b.command op).buf = b.buf ∧ (b.command op).poly = b.poly := by
    cases hbusy : b.busy with
    | true => rw [Block.command_of_busy hbusy]; exact ⟨rfl, rfl⟩
    | false => rw [Block.command_of_idle hbusy]; exact ⟨rfl, rfl⟩
  obtain ⟨hbuf, hpoly⟩ := hoperands
  exact Block.readByte_congr (congrArg Buffer.length hbuf) hpoly hstatus hcrc fun _ _ => by rw [hbuf]

/-- Settles O10: the step is START or a BusyAccess, and neither touches BUF or POLY. -/
theorem commandFrame : Obligations.CommandFrame := by
  unfold Obligations.CommandFrame
  intro i s t h
  obtain rfl : s.command i = t := by simpa [exec_next] using h
  refine ⟨fun a => s.block.readByte_command i.opcode, rfl, rfl, rfl, rfl, rfl, fun busy => ?_, fun idle => ?_⟩
  · rw [State.command_block, Block.command_of_busy busy]
    exact ⟨rfl, rfl, rfl, busy, rfl, rfl⟩
  · rw [State.command_block, Block.command_of_idle idle]
    exact ⟨rfl, rfl⟩

/-! ### The engine's turn -/

/-- Settles O13: the turn is the engine's BITSTEP. -/
theorem bitstepTurn : Obligations.BitstepTurn := by
  unfold Obligations.BitstepTurn
  intro s busy more
  rw [step_engineNext_one]
  exact engineTurn_of_engineStep (Block.engineStep_of_lt busy more)

/-- Settles O14: the turn is the engine's FINISH. -/
theorem finishTurn : Obligations.FinishTurn := by
  unfold Obligations.FinishTurn
  intro s busy all
  rw [step_engineNext_one]
  exact engineTurn_of_engineStep (Block.engineStep_of_eq busy all)

/-- R140: the engine has a step in every state but a busy one with POS past the end (log entry 7). -/
theorem Block.engineStep_total (b : Block) : (∃ c, b.engineStep = .next c) ∨
    (b.engineStep = .fault .sequencerPastEnd ∧ b.busy = true ∧ b.bits < b.pos) := by
  cases hbusy : b.busy with
  | false => exact .inl ⟨b, Block.engineStep_of_idle hbusy⟩
  | true =>
    rcases Nat.lt_trichotomy b.pos b.bits with hlt | heq | hgt
    · exact .inl ⟨_, Block.engineStep_of_lt hbusy hlt⟩
    · exact .inl ⟨_, Block.engineStep_of_eq hbusy heq⟩
    · refine .inr ⟨?_, rfl, hgt⟩
      simp [Block.engineStep, hbusy, Nat.not_lt_of_gt hgt, Nat.ne_of_gt hgt]

theorem hostAct_next (op : HostOp) (s : State) : ∃ t, hostAct op s = .next t := by
  cases op with
  | read a => exact ⟨_, rfl⟩
  | write a v =>
    obtain ⟨c, -, hwrite⟩ := hostWrite_next a v s
    exact ⟨_, hwrite⟩
  | reset => exact ⟨_, rfl⟩
  | wait => exact ⟨_, rfl⟩

theorem hostTurn_next (s : State) : ∃ t, hostTurn s = .next t := by
  cases hprog : s.program with
  | nil => exact ⟨s, hostTurn_of_program_nil hprog⟩
  | cons op rest =>
    rw [hostTurn_of_program_cons hprog]
    exact hostAct_next op _

/-- The host's turn always answers a next state, the engine's does but for POS past the end. -/
theorem step_total (s : State) : (∃ t, step s = .next t) ∨
    (step s = .fault .sequencerPastEnd ∧ s.block.busy = true ∧ s.block.bits < s.block.pos) := by
  obtain ⟨hblock, -, -, -⟩ := nextTurn_keeps s
  unfold step
  cases (nextTurn s).1 with
  | host => exact .inl (hostTurn_next _)
  | engine =>
    rw [← hblock]
    rcases (nextTurn s).2.block.engineStep_total with ⟨c, hstep⟩ | ⟨hstep, hpast⟩
    · exact .inl ⟨_, engineTurn_of_engineStep hstep⟩
    · refine .inr ⟨?_, hpast⟩
      rw [agentTurn, engineTurn, hstep]

/-- Settles O16: past the end is the only stop, and (a) of the invariant rules it out. -/
theorem stepStopsOnlyPastEnd : Obligations.StepStopsOnlyPastEnd := by
  unfold Obligations.StepStopsOnlyPastEnd
  refine ⟨fun s idle => ?_, step_total, fun s hinv => ?_⟩
  · rw [step_engineNext_one]
    exact engineTurn_of_engineStep (Block.engineStep_of_idle idle)
  · exact (step_total s).resolve_right fun ⟨_, _, hpast⟩ => Nat.not_lt_of_ge hinv.pos_le hpast

/-! ### A whole operation with no host step between -/

/-- The block after a whole operation, field by field (R145). -/
theorem Block.completed_eq (i : Instr) (b : Block) : b.completed i.opcode = { b with
    buf := if i = .insert then b.buf.insert b.poly else b.buf
    rem := b.buf.compute b.poly, pos := 8 * b.length, op := i.opcode, busy := false, done := true
    matched := decide (i = .verify ∧ b.buf.compute b.poly = 0#8) } := by
  have hall : (b.start i.opcode).consumed b.bits = { b.start i.opcode with rem := b.buf.compute b.poly, pos := 8 * b.length } :=
    congrArg (fun r => { b.start i.opcode with rem := r, pos := 8 * b.length }) (b.consumed_bits_rem i.opcode)
  rw [Block.completed, hall]
  cases i with
  | compute => rfl
  | verify => simp [Block.finish, Block.finishBuf, Block.finishMatch, Block.start, Instr.opcode]
  | insert => rfl

/-- The first of the engine's turns. -/
theorem runs_engineNext_succ {s : State} {c : Block} (h : s.block.engineStep = .next c) (k : Nat) :
    runs (k + 1) (s.engineNext (k + 1)) = runs k ({ s with block := c }.engineNext k) := by
  have hturn : step (s.engineNext (k + 1)) = engineTurn (s.engineNext k) := step_engine s _
  exact runs_succ_next (hturn.trans (engineTurn_of_engineStep h))

/-- The bits that are left and FINISH, by induction on the number of bits. -/
theorem runs_engine_consumed {b : Block} (busy : b.busy = true) (s : State) {left p : Nat} (hleft : p + left = b.bits) :
    runs (left + 1) ({ s with block := b.consumed p }.engineNext (left + 1)) =
      .next { s with block := (b.consumed b.bits).finish } := by
  induction left generalizing p with
  | zero =>
    obtain rfl : p = b.bits := hleft
    have hfinish : (b.consumed b.bits).engineStep = .next (b.consumed b.bits).finish := Block.engineStep_of_eq busy rfl
    rw [runs_engineNext_succ hfinish]
    rfl
  | succ left ih =>
    have more : p < b.bits := by omega
    have hbit : (b.consumed p).engineStep = .next (b.consumed (p + 1)) := Block.engineStep_of_lt busy more
    rw [runs_engineNext_succ hbit]
    exact ih (by omega)

/-- R145 with no host step between: the command, then 8·N + 1 turns of the engine. -/
theorem exec_runs_completed {s : State} (idle : s.block.busy = false) (i : Instr) :
    ∃ s1, exec i s = .next s1 ∧ runs (8 * s.block.length + 1) (s1.engineNext (8 * s.block.length + 1)) =
      .next { s with block := s.block.completed i.opcode } := by
  refine ⟨_, exec_of_idle idle i, ?_⟩
  rw [← Block.bits]
  exact runs_engine_consumed (b := s.block.start i.opcode) (p := 0) rfl s (Nat.zero_add s.block.bits)

/-- Settles O6: the completed block of COMPUTE, and a busy command's BusyAccess. -/
theorem computeOperation : Obligations.ComputeOperation := by
  unfold Obligations.ComputeOperation
  refine fun s => ⟨fun idle => ?_, fun busy => exec_of_busy busy .compute⟩
  have h := exec_runs_completed idle .compute
  rw [Block.completed_eq] at h
  exact h

/-- Settles O7: the completed block of VERIFY, and a busy command's BusyAccess. -/
theorem verifyOperation : Obligations.VerifyOperation := by
  unfold Obligations.VerifyOperation
  refine fun s => ⟨fun idle => ?_, fun busy => exec_of_busy busy .verify⟩
  have h := exec_runs_completed idle .verify
  rw [Block.completed_eq] at h
  simpa [Instr.opcode] using h

/-- Settles O8: the completed block of INSERT, and a busy command's BusyAccess. -/
theorem insertOperation : Obligations.InsertOperation := by
  unfold Obligations.InsertOperation
  refine fun s => ⟨fun idle => ?_, fun busy => exec_of_busy busy .insert⟩
  have h := exec_runs_completed idle .insert
  rw [Block.completed_eq] at h
  exact h

/-- Settles O12: each INSERT replaces BUF by `insert` of it, and `insert` is an involution. -/
theorem insertTwiceRestores : Obligations.InsertTwiceRestores := by
  unfold Obligations.InsertTwiceRestores
  intro s idle
  obtain ⟨s1, hexec1, hrun1⟩ := exec_runs_completed idle .insert
  obtain ⟨s3, hexec3, hrun3⟩ :=
    exec_runs_completed (s := { s with block := s.block.completed 3#2 }) (s.block.completed_busy 3#2) .insert
  rw [Block.completed_length] at hrun3
  refine ⟨s1, _, s3, _, hexec1, hrun1, hexec3, hrun3, rfl, ?_⟩
  calc ((s.block.completed 3#2).completed 3#2).buf
      = (s.block.completed 3#2).buf.insert s.block.poly := Block.completed_insert_buf _
    _ = (s.block.buf.insert s.block.poly).insert s.block.poly := by rw [Block.completed_insert_buf]
    _ = s.block.buf := Buffer.insert_insert _ _

/-! ### The operation under every interleaving -/

/-- Some line of `lines` may fault at a busy block of buffer length `n`. -/
def Loud (n : Nat) (lines : List HostOp) : Prop := ∃ h ∈ lines, ¬ h.Quiet n

/-- What the accesses of a host can make of a busy block (R151): nothing, or, if some line of theirs may fault (`loud`), the
trace of the first of their faults. -/
inductive Faulted (loud : Prop) (b : Block) : Block → Prop where
  | none : Faulted loud b b
  | access (hloud : loud) (f : HostFault) (hf : f = .busyAccess ∨ f = .badAccess) : Faulted loud b (b.raise f)

section Faulted
variable {loud loud' : Prop} {b c d : Block}

theorem Faulted.mono (h : Faulted loud b c) (himp : loud → loud') : Faulted loud' b c := by
  cases h with
  | none => exact .none
  | access hloud f hf => exact .access (himp hloud) f hf

/-- A second fault leaves no trace. -/
theorem Faulted.trans (h : Faulted loud b c) (h' : Faulted loud c d) : Faulted loud b d := by
  cases h with
  | none => exact h'
  | access hloud f hf =>
    cases h' with
    | none => exact .access hloud f hf
    | access _ g _ =>
      rw [Block.raise_of_err (b.raise_err f)]
      exact .access hloud f hf

theorem Faulted.busy_eq (h : Faulted loud b c) : c.busy = b.busy := by cases h <;> rfl

theorem Faulted.length_eq (h : Faulted loud b c) : c.length = b.length := by cases h <;> rfl

/-- The fault trace after the accesses of a host at a busy block. -/
theorem Faulted.trace (h : Faulted loud b c) :
    (b.err = true → c.err = true ∧ c.errCode = b.errCode) ∧ (¬ loud → c.err = b.err ∧ c.errCode = b.errCode) ∧
      (b.err = false → (c.err = false ∧ c.errCode = b.errCode) ∨ (c.err = true ∧ (c.errCode = 3#3 ∨ c.errCode = 4#3))) := by
  cases h with
  | none => exact ⟨fun herr => ⟨herr, rfl⟩, fun _ => ⟨rfl, rfl⟩, fun herr => .inl ⟨herr, rfl⟩⟩
  | access hloud f hf =>
    refine ⟨fun herr => ⟨rfl, if_pos herr⟩, fun hquiet => absurd hloud hquiet, fun herr => .inr ⟨rfl, ?_⟩⟩
    rw [Block.raise_errCode, Block.faultCode, herr]
    rcases hf with rfl | rfl
    · exact .inl rfl
    · exact .inr rfl

/-- A fault leaves its trace only. -/
theorem Faulted.eq_withTrace (h : Faulted loud b c) : c = b.withTrace c.err c.errCode := by
  cases h <;> rfl

/-- The engine takes the same step with the trace as without it. -/
theorem Faulted.engineStep {b' : Block} (h : Faulted loud b c) (hstep : b.engineStep = .next b') :
    ∃ c', c.engineStep = .next c' ∧ Faulted loud b' c' := by
  cases h with
  | none => exact ⟨b', hstep, .none⟩
  | access hloud f hf =>
    refine ⟨b'.raise f, ?_, .access hloud f hf⟩
    rcases Block.engineStep_cases hstep with ⟨idle, rfl⟩ | ⟨busy, more, rfl⟩ | ⟨busy, all, rfl⟩
    · exact Block.engineStep_of_idle idle
    · exact Block.engineStep_of_lt busy more
    · exact Block.engineStep_of_eq busy all

end Faulted

section Busy
variable {s : State}

theorem hostWrite_of_busy (busy : s.block.busy = true) (a : Nat) (v : Byte) :
    ∃ f, (f = .busyAccess ∨ f = .badAccess) ∧ hostWrite a v s = .next { s with block := s.block.raise f } := by
  by_cases ha : a = 0 ∨ a = 2 ∨ (4 ≤ a ∧ a < s.block.length + 4)
  · exact ⟨_, .inl rfl, hostWrite_busyAccess busy ha⟩
  · exact ⟨_, .inr rfl, hostWrite_badAccess (by omega)⟩

/-- A host line that is no RESET, run while an operation runs. WAIT goes on waiting. -/
theorem hostAct_of_busy (busy : s.block.busy = true) {op : HostOp} (hop : op ≠ .reset) :
    ∃ t, hostAct op s = .next t ∧ Faulted (¬ op.Quiet s.block.length) s.block t.block ∧
      (t.program = s.program ∨ t.program = op :: s.program) := by
  cases op with
  | read a =>
    refine ⟨_, rfl, ?_, .inl rfl⟩
    rw [hostRead_block]
    by_cases ha : 1 ≤ a ∧ a < s.block.length + 4
    · rw [Block.afterRead_readable ha.1 ha.2]
      exact .none
    · rw [Block.afterRead_badAccess (by omega)]
      exact .access ha _ (.inr rfl)
  | write a v =>
    obtain ⟨f, hf, hwrite⟩ := hostWrite_of_busy busy a v
    exact ⟨_, hwrite, .access id f hf, .inl rfl⟩
  | reset => exact absurd rfl hop
  | wait => exact ⟨_, congrArg Host.Outcome.next (hostWait_of_busy busy), .none, .inr rfl⟩

/-- A host turn while an operation runs, if its line is no RESET: the lines that `n` further turns can reach were among the
lines that this turn and they could. -/
theorem hostTurn_of_busy (busy : s.block.busy = true) {n : Nat} (hreset : .reset ∉ s.program.take (n + 1)) :
    ∃ t, hostTurn s = .next t ∧ Faulted (Loud s.block.length (s.program.take (n + 1))) s.block t.block ∧
      t.program.take n ⊆ s.program.take (n + 1) := by
  cases hprog : s.program with
  | nil => exact ⟨s, hostTurn_of_program_nil hprog, .none, by simp [hprog]⟩
  | cons op rest =>
    rw [hprog, List.take_succ_cons, List.mem_cons, not_or] at hreset
    obtain ⟨t, hact, hfaulted, hwaits⟩ :=
      hostAct_of_busy (s := { s with program := rest }) busy (op := op) (Ne.symm hreset.1)
    rw [hostTurn_of_program_cons hprog, List.take_succ_cons]
    refine ⟨t, hact, hfaulted.mono fun hloud => ⟨op, List.mem_cons_self, hloud⟩, ?_⟩
    rcases hwaits with htook | hwaits
    · rw [htook]
      exact List.subset_cons_self _ _
    · rw [hwaits, ← List.take_succ_cons]
      exact List.take_subset_take_left _ (Nat.le_succ n)

end Busy

/-- Any order of turns with as many of the engine's as there are bits left, by induction on it: the bits get consumed, and the
host's turns leave at most the trace of a fault. `lines` holds the lines that the host can reach. -/
theorem runs_turns_consumed {b : Block} (busy : b.busy = true) {lines : List HostOp} (hreset : .reset ∉ lines)
    {pre rest : List Agent} {p : Nat} {s : State} (hblock : Faulted (Loud b.length lines) (b.consumed p) s.block)
    (hturns : s.turns = pre ++ rest) (hcount : p + pre.count .engine = b.bits)
    (hlines : s.program.take (pre.count .host) ⊆ lines) :
    ∃ t, runs pre.length s = .next t ∧ t.turns = rest ∧ Faulted (Loud b.length lines) (b.consumed b.bits) t.block := by
  induction pre generalizing p s with
  | nil =>
    obtain rfl : p = b.bits := hcount
    exact ⟨s, rfl, hturns, hblock⟩
  | cons g pre ih =>
    have hstep := step_of_turns_cons (s := s) (g := g) hturns
    rw [List.length_cons]
    cases g with
    | engine =>
      simp only [List.count_cons_self, List.count_cons_of_ne (show Agent.engine ≠ .host by decide)] at hcount hlines
      have more : p < b.bits := by omega
      have hbit : (b.consumed p).engineStep = .next (b.consumed (p + 1)) := Block.engineStep_of_lt busy more
      obtain ⟨c, hc, hfaulted⟩ := hblock.engineStep hbit
      have hturn : step s = .next { s with block := c, turns := pre ++ rest } := hstep.trans (engineTurn_of_engineStep hc)
      rw [runs_succ_next hturn]
      exact ih hfaulted rfl (by omega) hlines
    | host =>
      simp only [List.count_cons_self, List.count_cons_of_ne (show Agent.host ≠ .engine by decide)] at hcount hlines
      have hlen : s.block.length = b.length := hblock.length_eq
      obtain ⟨t, hturn, hfaulted, hprog⟩ :=
        hostTurn_of_busy (s := { s with turns := pre ++ rest }) (hblock.busy_eq.trans busy) fun hmem => hreset (hlines hmem)
      rw [runs_succ_next (hstep.trans hturn)]
      refine ih (hblock.trans (hfaulted.mono ?_)) (agentTurn_turns (g := .host) hturn) hcount fun h hh => hlines (hprog hh)
      rintro ⟨h, hmem, hloud⟩
      exact ⟨h, hlines hmem, hlen ▸ hloud⟩

/-- The turns of a whole operation, START done: 8·N of the engine's among any others of the host's, and one more for FINISH. -/
theorem runs_turns_completed {i : Instr} {b : Block} {s : State} {pre rest : List Agent} (hblock : s.block = b.start i.opcode)
    (hturns : s.turns = pre ++ .engine :: rest) (hcount : pre.count .engine = b.bits)
    (hreset : .reset ∉ s.program.take (pre.count .host)) :
    ∃ t, runs (pre.length + 1) s = .next t ∧ t.turns = rest ∧
      Faulted (Loud b.length (s.program.take (pre.count .host))) (b.completed i.opcode) t.block := by
  have hstart : Faulted (Loud b.length (s.program.take (pre.count .host))) ((b.start i.opcode).consumed 0) s.block := by
    rw [hblock]
    exact .none
  obtain ⟨t, hrun, hleft, hfaulted⟩ := runs_turns_consumed (b := b.start i.opcode) rfl hreset hstart hturns
    ((Nat.zero_add _).trans hcount) (List.Subset.refl _)
  obtain ⟨c, hc, hfaulted⟩ := hfaulted.engineStep (Block.engineStep_of_eq rfl rfl)
  have hturn : step t = .next { t with block := c, turns := rest } :=
    (step_of_turns_cons hleft).trans (engineTurn_of_engineStep hc)
  exact ⟨_, (runs_add hrun).trans ((runs_succ_next hturn).trans (runs_zero _)), rfl, hfaulted⟩

/-- Settles O9: the turns end in the completed block of the same command, but for the trace of a fault. -/
theorem interleavedOperation : Obligations.InterleavedOperation := by
  unfold Obligations.InterleavedOperation
  intro i s pre rest idle hturns hcount hreset
  obtain ⟨t, hrun, hleft, hfaulted⟩ :=
    runs_turns_completed (s := { s with block := s.block.start i.opcode }) (i := i) (b := s.block) rfl hturns hcount hreset
  obtain ⟨hkept, hquiet, hfirst⟩ := hfaulted.trace
  have hblock := hfaulted.eq_withTrace
  rw [Block.completed_eq] at hblock
  exact ⟨_, t, exec_of_idle idle i, hrun, hleft, congrArg Block.rem hblock, congrArg Block.pos hblock,
    congrArg Block.op hblock, congrArg Block.busy hblock, congrArg Block.done hblock, congrArg Block.matched hblock,
    congrArg Block.buf hblock, (congrArg Block.poly hblock :), hkept,
    fun hlines => hquiet fun ⟨h, hmem, hloud⟩ => hloud (hlines h hmem), hfirst⟩

/-! ### Results at idle -/

/-- BUSY and what an operation leaves, BUF apart: REM, DONE, MATCH, OP and POS. -/
def Block.results (b : Block) : Bool × Byte × Bool × Bool × BitVec 2 × Nat :=
  (b.busy, b.rem, b.done, b.matched, b.op, b.pos)

@[simp] theorem Block.results_raise (b : Block) (f : HostFault) : (b.raise f).results = b.results := rfl

theorem Block.results_afterRead (b : Block) (a : Nat) : (b.afterRead a).results = b.results := by
  rcases b.afterRead_cases a with h | h <;> rw [h]
  exact b.results_raise _

section Idle
variable {s t : State}

/-- A byte that is no command's starts nothing, and no other WRITE touches the results. -/
theorem hostWrite_results (idle : s.block.busy = false) {a : Nat} {v : Byte} (hop : (HostOp.write a v).Harmless)
    (h : hostWrite a v s = .next t) : t.block.results = s.block.results := by
  rcases address_cases s.block.length a with rfl | rfl | rfl | rfl | ⟨hlow, hhigh⟩ | hout
  · cases hv : decode v with
    | ok i => exact absurd (congrArg (HostOp.write 0) (decode_ok hv)) (hop.2 i)
    | error e => rw [hostWrite_badCommand_of_idle idle hv] at h; cases h; rfl
  · cases h; rfl
  · rw [hostWrite_poly_of_idle idle] at h; cases h; rfl
  · cases h; rfl
  · rw [hostWrite_buf_of_idle idle hlow hhigh] at h; cases h; rfl
  · rw [hostWrite_badAccess (.inr (.inr hout))] at h; cases h; rfl

theorem hostAct_results (idle : s.block.busy = false) {op : HostOp} (hop : op.Harmless) (h : hostAct op s = .next t) :
    t.block.results = s.block.results := by
  cases op with
  | read a => cases h; exact s.block.results_afterRead a
  | write a v => exact hostWrite_results idle hop h
  | reset => exact absurd rfl hop.1
  | wait => cases h; rw [hostWait_of_idle idle]

theorem agentTurn_results (idle : s.block.busy = false) (hprog : ∀ h ∈ s.program, h.Harmless) {g : Agent}
    (h : agentTurn g s = .next t) : t.block.results = s.block.results := by
  cases g with
  | host =>
    rcases hostTurn_cases h with ⟨-, rfl⟩ | ⟨op, rest, hline, hact⟩
    · rfl
    · have hop : op.Harmless := hprog op (by simp [hline])
      exact hostAct_results (s := { s with program := rest }) idle hop hact
  | engine =>
    obtain ⟨c, hstep, rfl⟩ := engineTurn_next h
    rw [Block.engineStep_of_idle idle] at hstep
    cases hstep
    rfl

theorem step_results (idle : s.block.busy = false) (hprog : ∀ h ∈ s.program, h.Harmless) (h : step s = .next t) :
    t.block.results = s.block.results := by
  obtain ⟨hblock, hprogram, -, -⟩ := nextTurn_keeps s
  rw [← hblock] at idle ⊢
  rw [← hprogram] at hprog
  exact agentTurn_results idle hprog h

/-- What holds along a run of a harmless host that began with the idle block `b`. -/
def Rests (b : Block) (s : State) : Prop :=
  s.block.busy = false ∧ s.block.results = b.results ∧ ∀ h ∈ s.program, h.Harmless

theorem step_keeps_rests {b : Block} (s t : State) (hs : Rests b s) (h : step s = .next t) : Rests b t := by
  obtain ⟨idle, hb, hprog⟩ := hs
  have hresults := step_results idle hprog h
  exact ⟨(congrArg Prod.fst hresults).trans idle, hresults.trans hb,
    fun op hop => hprog op ((step_program_suffix h).subset hop)⟩

/-- R149, at any number of steps. -/
theorem runs_results (idle : s.block.busy = false) (hprog : ∀ h ∈ s.program, h.Harmless) {k : Nat}
    (h : runs k s = .next t) : t.block.results = s.block.results := by
  obtain ⟨-, hresults, -⟩ := runs_keeps step_keeps_rests ⟨idle, rfl, hprog⟩ h
  exact hresults

end Idle

/-- Settles O32: the results are unchanged along the run, field by field. -/
theorem resultsPersist : Obligations.ResultsPersist := by
  unfold Obligations.ResultsPersist
  intro s t k idle hprog h
  have hresults := runs_results idle hprog h
  simp only [Block.results, Prod.mk.injEq] at hresults
  obtain ⟨hbusy, hrest⟩ := hresults
  exact ⟨hbusy.trans idle, hrest⟩

/-- Settles O26: RESET leaves an idle block with no results, and they persist. -/
theorem resetAbandonsOperation : Obligations.ResetAbandonsOperation := by
  unfold Obligations.ResetAbandonsOperation
  intro s t u k hreset hprog h
  obtain rfl : hostReset s = t := by simpa [step_host, hostAct] using hreset
  obtain ⟨hbusy, hrem, hdone, hmatched, hop, hpos⟩ := resultsPersist (hostReset s) u k rfl hprog h
  exact ⟨hbusy, hdone, hmatched, hrem, hpos, hop⟩

/-! ### ERR gates nothing -/

/-- The other fields of the block after `f` do not depend on the fault trace before it. -/
def TraceBlind (f : Block → Block) : Prop := ∀ b e c, ∃ e' c', f (b.withTrace e c) = (f b).withTrace e' c'

theorem TraceBlind.raise (f : HostFault) : TraceBlind (Block.raise f) := fun _ _ _ => ⟨_, _, rfl⟩

theorem TraceBlind.ite_busy {f g : Block → Block} (hf : TraceBlind f) (hg : TraceBlind g) :
    TraceBlind fun b => if b.busy then f b else g b := by
  intro b e c
  cases hbusy : b.busy with
  | true => simpa [hbusy] using hf b e c
  | false => simpa [hbusy] using hg b e c

theorem TraceBlind.command (op : BitVec 2) : TraceBlind (Block.command op) :=
  .ite_busy (.raise _) fun _ e c => ⟨e, c, rfl⟩

theorem TraceBlind.badCommand : TraceBlind Block.badCommand := .ite_busy (.raise _) (.raise _)

theorem TraceBlind.writePoly (v : Byte) : TraceBlind (Block.writePoly v) :=
  .ite_busy (.raise _) fun _ e c => ⟨e, c, rfl⟩

theorem TraceBlind.writeBuf (i : Nat) (v : Byte) : TraceBlind (Block.writeBuf i v) :=
  .ite_busy (.raise _) fun _ e c => ⟨e, c, rfl⟩

theorem TraceBlind.afterRead (a : Nat) : TraceBlind fun b => b.afterRead a := by
  intro b e c
  by_cases h : 1 ≤ a ∧ a < b.length + 4
  · obtain ⟨hlow, hhigh⟩ := h
    refine ⟨e, c, ?_⟩
    simp only [Block.afterRead_readable hlow hhigh]
    exact Block.afterRead_readable hlow hhigh
  · have hbad : a = 0 ∨ b.length + 4 ≤ a := by omega
    simp only [Block.afterRead_badAccess hbad]
    have hbad' : (b.withTrace e c).afterRead a = (b.withTrace e c).raise .badAccess := Block.afterRead_badAccess hbad
    rw [hbad']
    exact TraceBlind.raise _ b e c

/-- A WRITE changes the block alone, by a function that does not look at the fault trace. -/
theorem hostWrite_traceBlind (n a : Nat) (v : Byte) :
    ∃ f, TraceBlind f ∧ ∀ s : State, s.block.length = n → hostWrite a v s = .next (s.onBlock f) := by
  by_cases hbad : a = 1 ∨ a = 3 ∨ n + 4 ≤ a
  · exact ⟨_, .raise .badAccess, fun s hs => hostWrite_badAccess (hs ▸ hbad)⟩
  obtain rfl | rfl | ⟨hlow, hhigh⟩ : a = 0 ∨ a = 2 ∨ (4 ≤ a ∧ a < n + 4) := by omega
  · cases hv : decode v with
    | ok i => exact ⟨_, .command i.opcode, fun s _ => (hostWrite_command hv).trans (exec_next i s)⟩
    | error e => exact ⟨_, .badCommand, fun s _ => hostWrite_badCommand hv⟩
  · exact ⟨_, .writePoly v, fun _ _ => hostWrite_poly⟩
  · exact ⟨_, .writeBuf (a - 4) v, fun s hs => hostWrite_buf hlow (hs ▸ hhigh)⟩

/-- `t'` is `t` but for the fault trace and the bytes that READs of STATUS returned. -/
inductive TraceTwin (t : State) : State → Prop where
  | intro (e : Bool) (c : BitVec 3) (reads : List Host.Cell)
      (h : reads.filter (fun r => r.1 ≠ 1) = t.reads.filter (fun r => r.1 ≠ 1)) :
      TraceTwin t { t.withTrace e c with reads := reads }

section Twin
variable {s t : State} (e : Bool) (c : BitVec 3)

theorem TraceTwin.refl (t : State) : TraceTwin t t := .intro t.block.err t.block.errCode t.reads rfl

theorem hostRead_withTrace (a : Nat) : TraceTwin (hostRead a s) (hostRead a (s.withTrace e c)) := by
  obtain ⟨e', c', hblock⟩ := TraceBlind.afterRead a s.block e c
  have heq : hostRead a (s.withTrace e c) = { (hostRead a s).withTrace e' c' with
      reads := (a, (s.block.withTrace e c).readByte a) :: s.reads } :=
    congrArg (fun b => { s with block := b, reads := (a, (s.block.withTrace e c).readByte a) :: s.reads }) hblock
  rw [heq]
  refine .intro e' c' _ ?_
  by_cases ha : a = 1
  · simp [ha]
  · have hbyte : (s.block.withTrace e c).readByte a = s.block.readByte a :=
      Block.readByte_congr_at rfl (fun h => absurd h ha) (fun _ => rfl) (fun _ => rfl) fun _ _ => rfl
    rw [hbyte, hostRead_reads]

theorem hostWait_withTrace : TraceTwin (hostWait s) (hostWait (s.withTrace e c)) := by
  cases hbusy : s.block.busy with
  | true =>
    rw [hostWait_of_busy hbusy, hostWait_of_busy (s := s.withTrace e c) hbusy]
    exact .intro e c ((1, (s.block.withTrace e c).status) :: s.reads) (by simp)
  | false =>
    rw [hostWait_of_idle hbusy, hostWait_of_idle (s := s.withTrace e c) hbusy]
    exact .intro e c ((1, (s.block.withTrace e c).status) :: s.reads) (by simp)

theorem hostAct_withTrace {op : HostOp} (h : hostAct op s = .next t) :
    ∃ t', hostAct op (s.withTrace e c) = .next t' ∧ TraceTwin t t' := by
  cases op with
  | read a => cases h; exact ⟨_, rfl, hostRead_withTrace e c a⟩
  | write a v =>
    obtain ⟨f, hf, hwrite⟩ := hostWrite_traceBlind s.block.length a v
    obtain ⟨e', c', hblock⟩ := hf s.block e c
    obtain rfl : s.onBlock f = t := by simpa [hostAct, hwrite s rfl] using h
    have hon : (s.withTrace e c).onBlock f = (s.onBlock f).withTrace e' c' :=
      congrArg (fun b => { s with block := b }) hblock
    exact ⟨_, hwrite (s.withTrace e c) rfl, hon ▸ .intro e' c' s.reads rfl⟩
  | reset => cases h; exact ⟨_, rfl, .refl _⟩
  | wait => cases h; exact ⟨_, rfl, hostWait_withTrace e c⟩

theorem Block.engineStep_withTrace {b b' : Block} (h : b.engineStep = .next b') :
    (b.withTrace e c).engineStep = .next (b'.withTrace e c) := by
  rcases Block.engineStep_cases h with ⟨idle, rfl⟩ | ⟨busy, more, rfl⟩ | ⟨busy, all, rfl⟩
  · exact Block.engineStep_of_idle idle
  · exact Block.engineStep_of_lt busy more
  · exact Block.engineStep_of_eq busy all

theorem agentTurn_withTrace {g : Agent} (h : agentTurn g s = .next t) :
    ∃ t', agentTurn g (s.withTrace e c) = .next t' ∧ TraceTwin t t' := by
  cases g with
  | host =>
    rcases hostTurn_cases h with ⟨hprog, rfl⟩ | ⟨op, rest, hprog, hact⟩
    · exact ⟨_, hostTurn_of_program_nil hprog, .intro e c t.reads rfl⟩
    · obtain ⟨t', hact', htwin⟩ := hostAct_withTrace e c hact
      have hprog' : (s.withTrace e c).program = op :: rest := hprog
      exact ⟨t', (hostTurn_of_program_cons hprog').trans hact', htwin⟩
  | engine =>
    obtain ⟨b', hstep, rfl⟩ := engineTurn_next h
    exact ⟨_, engineTurn_of_engineStep (Block.engineStep_withTrace e c hstep), .intro e c s.reads rfl⟩

/-- Whose turn it is does not depend on the block. -/
theorem nextTurn_withTrace (s : State) :
    nextTurn (s.withTrace e c) = ((nextTurn s).1, (nextTurn s).2.withTrace e c) := by
  unfold nextTurn
  rw [State.withTrace_turns, State.withTrace_tick]
  cases s.turns with
  | cons a rest => rfl
  | nil => cases Config.turns s.tick <;> rfl

end Twin

/-- Settles O33: the turn is the same agent's, and what it does is blind to the fault trace. -/
theorem errGatesNothing : Obligations.ErrGatesNothing := by
  unfold Obligations.ErrGatesNothing
  intro s t e c h
  obtain ⟨t', hturn, htwin⟩ := agentTurn_withTrace e c h
  refine ⟨t', ?_, ?_⟩
  · rw [step, nextTurn_withTrace]
    exact hturn
  · cases htwin with
    | intro e' c' reads hreads => exact ⟨rfl, hreads⟩

end Sys2Proof.Machine
end

section
/-! SUPPORT. Proofs of the family 60_exceptions.md: what a fault leaves in ERR and ERRCODE (R176, R177). -/

namespace Sys2Proof.Machine

/-- R176: ERRCODE takes the code of a fault raised while ERR = 0. -/
theorem Block.faultCode_of_no_err {b : Block} (h : b.err = false) (f : HostFault) : b.faultCode f = f.code := by
  simp [Block.faultCode, h]

theorem Block.raise_of_no_err {b : Block} (h : b.err = false) (f : HostFault) :
    b.raise f = { b with err := true, errCode := f.code } := by
  rw [Block.raise, Block.faultCode_of_no_err h]

/-- Settles O22: `raise` with ERR = 0 and with ERR = 1, and the three codes evaluated. -/
theorem firstFaultIsKept : Obligations.FirstFaultIsKept := by
  unfold Obligations.FirstFaultIsKept
  refine ⟨fun _ f herr => Block.raise_of_no_err herr f, fun b f herr => ?_, rfl, rfl, rfl⟩
  have hsame : b.raise f = b := Block.raise_of_err herr f
  exact ⟨hsame, congrArg Block.status hsame⟩

end Sys2Proof.Machine
end

section
/-! SUPPORT. Proofs of the family 70_reset_and_hazards.md: a busy engine finishes (R213), INSERT then VERIFY (R204), and RESET
as the one thing that clears a fault (R200). -/

namespace Sys2Proof

open Machine

/-- (g) of the invariant at the end of the stream: all the bits consumed are the whole buffer (R104). -/
theorem Inv.rem_eq_compute {b : Block} (h : Inv b) (busy : b.busy = true) (all : b.pos = b.bits) :
    b.rem = b.buf.compute b.poly := by
  rw [h.partial_rem busy, all, Buffer.compute_eq_divideBits]
  rfl

end Sys2Proof

namespace Sys2Proof.Machine

/-! ### A busy engine finishes -/

/-- The run's block is `b`, but for the trace that a host's fault may have left, and no line of its host is a RESET. -/
structure Undisturbed (b : Block) (s : State) : Prop where
  block : Faulted True b s.block
  program : .reset ∉ s.program

section Undisturbed
variable {b c : Block} {s : State}

theorem Undisturbed.hostTurn (hs : Undisturbed b s) (busy : b.busy = true) :
    ∃ t, hostTurn s = .next t ∧ Undisturbed b t := by
  obtain ⟨t, hturn, hfaulted, -⟩ :=
    hostTurn_of_busy (n := 0) (hs.block.busy_eq.trans busy) fun hmem => hs.program (List.mem_of_mem_take hmem)
  have hsuffix : t.program <:+ s.program :=
    step_program_suffix (s := { s with turns := .host :: s.turns }) ((step_of_host_turn s).trans hturn)
  exact ⟨t, hturn, hs.block.trans (hfaulted.mono fun _ => trivial), fun hmem => hs.program (hsuffix.subset hmem)⟩

/-- While an operation runs no host turn stands in the engine's way, so the engine comes to take its step. -/
theorem Undisturbed.eventually_engineStep (hs : Undisturbed b s) (busy : b.busy = true) (hstep : b.engineStep = .next c) :
    Eventually (Undisturbed c) s := by
  have hleads : Leads .engine (Undisturbed b) (Undisturbed c) := by
    refine ⟨fun _ _ _ hu => ⟨hu.block, hu.program⟩, fun u hu => ?_, fun u a ha hu => ?_⟩
    · obtain ⟨d, hd, hfaulted⟩ := hu.block.engineStep hstep
      exact ⟨_, engineTurn_of_engineStep hd, hfaulted, hu.program⟩
    · cases a with
      | engine => exact absurd rfl ha
      | host => exact hu.hostTurn busy
  exact hleads.eventually hs

/-- The bits that are left, by induction on their number, then FINISH. Each BITSTEP keeps BUF and POLY, and the invariant says
what REM is when no bit is left. -/
theorem Undisturbed.eventually_finished {left : Nat} (hs : Undisturbed b s) (hinv : Inv b) (busy : b.busy = true)
    (hleft : b.pos + left = b.bits) :
    Eventually (fun t => t.block.busy = false ∧ t.block.done = true ∧ t.block.rem = b.buf.compute b.poly) s := by
  induction left generalizing b s with
  | zero =>
    refine (hs.eventually_engineStep busy (Block.engineStep_of_eq busy hleft)).mono fun t ht => ?_
    rw [ht.block.eq_withTrace]
    exact ⟨rfl, rfl, hinv.rem_eq_compute busy hleft⟩
  | succ left ih =>
    have more : b.pos < b.bits := by omega
    refine (hs.eventually_engineStep busy (Block.engineStep_of_lt busy more)).trans fun t ht => ?_
    have hleft' : b.pos + 1 + left = b.bits := by omega
    exact ih (b := b.bitStep) ht (hinv.bitStep busy more) busy hleft'

end Undisturbed

/-- Settles O34: a busy state with the invariant has `8·N - POS` bits left, and a host without RESET leaves it undisturbed. -/
theorem busyEngineFinishes : Obligations.BusyEngineFinishes := by
  unfold Obligations.BusyEngineFinishes
  intro s hinv busy hreset
  have hs : Undisturbed s.block s := ⟨.none, hreset⟩
  exact hs.eventually_finished hinv busy (Nat.add_sub_of_le hinv.pos_le)

/-! ### INSERT then VERIFY -/

/-- The checksum of the buffer that INSERT leaves is the placeholder it replaced (R114). -/
theorem Block.compute_completed_insert (b : Block) :
    (b.completed 3#2).buf.compute b.poly = b.buf.slot := by
  rw [Block.completed_insert_buf, Buffer.compute_insert]

/-- Settles O11: VERIFY divides the buffer that INSERT left, whose remainder is the placeholder. -/
theorem insertThenVerify : Obligations.InsertThenVerify := by
  unfold Obligations.InsertThenVerify
  intro s idle
  obtain ⟨s1, hexec1, hrun1⟩ := exec_runs_completed idle .insert
  obtain ⟨s3, hexec3, hrun3⟩ :=
    exec_runs_completed (s := { s with block := s.block.completed 3#2 }) (s.block.completed_busy 3#2) .verify
  rw [Block.completed_length] at hrun3
  refine ⟨s1, _, s3, _, hexec1, hrun1, hexec3, hrun3, rfl, ?_, ?_⟩
  · exact (Block.completed_rem _ _).trans s.block.compute_completed_insert
  · refine (Block.completed_verify_matched _).trans ?_
    exact congrArg (fun r => decide (r = 0x00#8)) s.block.compute_completed_insert

/-! ### RESET and the fault trace -/

/-- No change a step can make to a block, RESET apart, clears a fault or replaces its code (R176, R181). -/
theorem BlockChange.keeps_fault {b c : Block} (h : BlockChange b c) (herr : b.err = true) :
    c.err = true ∧ c.errCode = b.errCode := by
  have raise_keeps (f : HostFault) : (b.raise f).err = true ∧ (b.raise f).errCode = b.errCode := by
    rw [Block.raise_of_err herr]
    exact ⟨herr, rfl⟩
  cases h with
  | same => exact ⟨herr, rfl⟩
  | badAccess => exact raise_keeps _
  | busyAccess => exact raise_keeps _
  | illegalCommand => exact raise_keeps _
  | poly => exact ⟨herr, rfl⟩
  | buf => exact ⟨herr, rfl⟩
  | start => exact ⟨herr, rfl⟩
  | bitStep => exact ⟨herr, rfl⟩
  | finish => exact ⟨herr, rfl⟩

/-- Settles O24: the RESET line evaluates to a block after reset, and every step that is no RESET is a `BlockChange`. -/
theorem resetTurn : Obligations.ResetTurn := by
  unfold Obligations.ResetTurn
  refine ⟨fun s => ?_, fun s t herr hstep hreset => ?_⟩
  · exact ⟨_, _, s.block.length_reset s.resets, step_host s .reset⟩
  · rcases step_block_cases hstep with hchange | ⟨hturn, hhead, -⟩
    · exact hchange.keeps_fault herr
    · exact absurd ⟨hturn, hhead⟩ hreset

end Sys2Proof.Machine
end
